-- ==== Sys2Proof/Word.lean ====
section
/-! DEFINITION. The width of an RC5-CORE instance and its Word (spec/00_scope.md R7, spec/40_word_datapath.md R100).
The operations on Words stand in Machine/Operands.lean. -/

namespace Sys2Proof

/-- The word width of an instance (00_scope.md R7): 8, 16, 32 or 64 bits, and no other. -/
inductive Width where
  | w8
  | w16
  | w32
  | w64
  deriving DecidableEq, Repr

/-- `W`, in bits (00_scope.md R7). -/
def Width.bits : Width → Nat
  | .w8 => 8
  | .w16 => 16
  | .w32 => 32
  | .w64 => 64

/-- `u = W/8`, the number of bytes per Word (00_scope.md R7). -/
def Width.bytes : Width → Nat
  | .w8 => 1
  | .w16 => 2
  | .w32 => 4
  | .w64 => 8

/-- A byte of the key, or one byte lane of a slot of the host register space. -/
abbrev Byte := BitVec 8

/-- A Word: an unsigned integer in `0 .. 2^W - 1` (40_word_datapath.md R100). -/
abbrev Word (w : Width) := BitVec w.bits

theorem Width.bits_pos (w : Width) : 0 < w.bits := by cases w <;> decide

theorem Width.bytes_pos (w : Width) : 0 < w.bytes := by cases w <;> decide

theorem Width.bits_eq (w : Width) : w.bits = 8 * w.bytes := by cases w <;> rfl

theorem Width.bytes_le (w : Width) : w.bytes ≤ 8 := by cases w <;> decide

theorem Width.bits_le (w : Width) : w.bits ≤ 64 := by cases w <;> decide

end Sys2Proof
end

