-- ==== Sys2Proof/Config.lean ====
section
/-! DEFINITION. What an instance fixes (spec/00_scope.md §3) and the values the spec leaves unspecified, as opaque
constants (spec/92_eei_decisions.md D24). -/

namespace Sys2Proof

/-- `R_MAX`, the largest round count (00_scope.md R8). -/
abbrev Config.roundsMax : Nat := 255

/-- `T_MAX`, the largest table in words (00_scope.md R8). -/
abbrev Config.tableMax : Nat := 512

/-- `B_MAX`, the largest key length in bytes (00_scope.md R9). -/
abbrev Config.keyMax : Nat := 255

/-- `C_MAX = max(1, ceil(8*B_MAX/W))`, the words of buffer L (00_scope.md R9). -/
def Config.bufferMax (w : Width) : Nat :=
  max 1 ((8 * Config.keyMax + w.bits - 1) / w.bits)

/-- The instance that a width in bits selects: none where no such instance exists. This is UnsupportedWidth, a
refusal to build and never a run-time error (60_exceptions.md R204). -/
def Config.widthOf? (n : Nat) : Option Width :=
  match n with
  | 8 => some .w8
  | 16 => some .w16
  | 32 => some .w32
  | 64 => some .w64
  | _ => none

/-- The width of the machine that `State.reset` is. DESIGN CHOICE, notes/assumptions/1.md: the spec fixes W per
instance and every statement about a state holds for every width. -/
abbrev Config.resetWidth : Width := .w32

/-- FREE VALUE, notes/assumptions/2.md: what an unspecified byte of K or S at a byte address (the last argument)
holds. The first argument counts resets and the second the unspecified tables that EXPAND_KEY has left over the byte
since then, so each of these draws the byte anew (92_eei_decisions.md D24, 93_implementation_defined.md U2, U3, U4). -/
opaque Config.ramByte : Nat → Nat → Nat → Byte

/-- FREE VALUE, notes/assumptions/21.md: A (second argument 0) and B (second argument 1) after a block command that read
an unspecified word of S. The first argument counts the commands that read an unspecified value
(70_reset_and_hazards.md R235, 93_implementation_defined.md U4). -/
opaque Config.resultWord : Nat → Nat → BitVec 64

/-- FREE VALUE, notes/assumptions/21.md: S_LEN after an EXPAND_KEY that read an unspecified key byte, within the legal
values of 10_state.md R32. The argument counts as that of `Config.resultWord` (93_implementation_defined.md U4). -/
opaque Config.resultLength : Nat → Fin (Config.tableMax + 1)

/-- FREE VALUE, notes/assumptions/3.md: what word j of buffer L holds, between commands. The first argument counts
the events after which L is unspecified: resets and completions of EXPAND_KEY (10_state.md R35,
93_implementation_defined.md U5). -/
opaque Config.bufferWord : Nat → Nat → BitVec 64

end Sys2Proof
end

