-- ==== Sys2Proof/Syntax.lean ====
section
/-! DEFINITION. The commands, one constructor per row of spec/opcode_table.json (spec/30_encoding.md R84). -/

namespace Sys2Proof

/-- A command. `rounds` is the unsigned ROUNDS field of its command word (30_encoding.md R81, R82). ROTL and ROTR
ignore it, but their command words have it and PENDING records it (10_state.md R36). -/
inductive Instr where
  /-- OPC 0x1, 42_key_schedule.md R149. -/
  | expandKey (rounds : Nat)
  /-- OPC 0x2, 43_block_transforms.md R176. -/
  | encrypt (rounds : Nat)
  /-- OPC 0x3, 43_block_transforms.md R177. -/
  | decrypt (rounds : Nat)
  /-- OPC 0x4, 41_rotation.md R126. -/
  | rotl (rounds : Nat)
  /-- OPC 0x5, 41_rotation.md R127. -/
  | rotr (rounds : Nat)
  deriving DecidableEq, Repr

/-- The ROUNDS operand (30_encoding.md R82). -/
def Instr.rounds : Instr → Nat
  | .expandKey r => r
  | .encrypt r => r
  | .decrypt r => r
  | .rotl r => r
  | .rotr r => r

end Sys2Proof
end

