-- ==== Sys2Proof/WellFormed.lean ====
section
/-! DEFINITION. Which commands a command word can carry (spec/30_encoding.md R82). -/

namespace Sys2Proof

/-- ROUNDS fits its 16-bit field: "an unsigned integer in 0..65535" (30_encoding.md R82). A command has no other
operand. -/
def Instr.wellFormed (i : Instr) : Bool := decide (i.rounds < 65536)

@[simp] theorem Instr.wellFormed_iff (i : Instr) : i.wellFormed = true ↔ i.rounds < 65536 := by
  simp [Instr.wellFormed]

end Sys2Proof
end

