-- ==== Sys2Proof/Decode.lean ====
section
/-! DEFINITION. The decoder of command words, total on any word and on any bytes, and the encoder
(spec/30_encoding.md R80 to R86). -/

namespace Sys2Proof

/-- Why bytes are no command. -/
inductive DecodeError where
  /-- OPC is 0x0 or 0x6 to 0xF (30_encoding.md R85). -/
  | illegalOpcode (opc : BitVec 4)
  /-- Not the 8 bytes of one command word (30_encoding.md R86). -/
  | notOneWord (bytes : Nat)
  deriving DecidableEq, Repr

/-- OPC, bits [3:0] (30_encoding.md R81). -/
def opcField (v : BitVec 64) : BitVec 4 := v.extractLsb' 0 4

/-- ROUNDS, bits [23:8] (30_encoding.md R81). -/
def roundsField (v : BitVec 64) : BitVec 16 := v.extractLsb' 8 16

/-- The command a command word stands for, by its OPC (30_encoding.md R84, R85). RSV0 and RSV1 are not looked at
(R83). -/
def decodeWord (v : BitVec 64) : Except DecodeError Instr :=
  match (opcField v).toNat with
  | 1 => .ok (.expandKey (roundsField v).toNat)
  | 2 => .ok (.encrypt (roundsField v).toNat)
  | 3 => .ok (.decrypt (roundsField v).toNat)
  | 4 => .ok (.rotl (roundsField v).toNat)
  | 5 => .ok (.rotr (roundsField v).toNat)
  | _ => .error (.illegalOpcode (opcField v))

/-- The integer that bytes stand for, byte lane 0 first: lane j is bits [8j+7:8j] (20_memory.md R60). -/
def natOfBytes : List Byte → Nat
  | [] => 0
  | x :: xs => x.toNat + 256 * natOfBytes xs

/-- The n low byte lanes of an integer, lane 0 first (20_memory.md R60). -/
def bytesOfNat : Nat → Nat → List Byte
  | 0, _ => []
  | n + 1, v => BitVec.ofNat 8 v :: bytesOfNat n (v / 256)

/-- The command that the 8 byte lanes of a command word stand for (30_encoding.md R86). -/
def decode (bytes : List Byte) : Except DecodeError Instr :=
  if bytes.length = 8 then decodeWord (BitVec.ofNat 64 (natOfBytes bytes))
  else .error (.notOneWord bytes.length)

/-- The OPC of a command (30_encoding.md R84). -/
def Instr.opcode : Instr → BitVec 4
  | .expandKey _ => 0x1
  | .encrypt _ => 0x2
  | .decrypt _ => 0x3
  | .rotl _ => 0x4
  | .rotr _ => 0x5

/-- The command word of a command: ROUNDS in bits [23:8], OPC in bits [3:0], the reserved fields 0
(30_encoding.md R81, R83; R97's `(r << 8) | opc`). -/
def encode (i : Instr) : BitVec 64 :=
  (BitVec.ofNat 16 i.rounds).setWidth 64 <<< 8 ||| i.opcode.setWidth 64

/-- The command word of a command as its 8 byte lanes (20_memory.md R60). -/
def encodeBytes (i : Instr) : List Byte := bytesOfNat 8 (encode i).toNat

/-- The 64-bit command word whose low `nbits` bits are those of `w`; the bits above are 0. -/
def tableWord (nbits w : Nat) : BitVec 64 := BitVec.ofNat 64 (w % 2 ^ nbits)

/-- The command the decoder reads from the bits `w` of an opcode-table row, laid out as the 8 byte lanes of one
command word. -/
def decodeTableWord (nbits w : Nat) : Option Instr :=
  (decode (bytesOfNat 8 (tableWord nbits w).toNat)).toOption

end Sys2Proof
end

