-- ==== Sys2Proof/Machine/State.lean ====
section
/-! DEFINITION. The state of an RC5-CORE instance and of its environment, as plain data (spec/10_state.md R20), the
reasons a step can stop, and the state after reset (spec/70_reset_and_hazards.md R230). -/

namespace Sys2Proof.Machine

open Sys2Proof

/-- STATUS (10_state.md R27): the live fields; the reserved bits have no storage. -/
structure Status where
  /-- Bit 0: a command is pending (R28). -/
  busy : Bool
  /-- Bit 1: the most recent command has finished (R29). -/
  done : Bool
  /-- Bit 2: the most recent command ended in an error (R30). -/
  err : Bool
  /-- Bits [7:4]: ERRCODE (R30; codes in 60_exceptions.md R200). -/
  errCode : BitVec 4
  deriving DecidableEq, Repr

/-- The errors a command can raise at run time (60_exceptions.md R200). UnsupportedWidth is none of them (R204). -/
inductive ErrCode where
  | invalidRounds
  | tableTooShort
  | illegalCommand
  deriving DecidableEq, Repr

/-- The specified bytes of K and S, by byte address in the host register space, addresses strictly rising. A byte that
is not listed is unspecified: it has not been written since the last reset, or last by an EXPAND_KEY that read an
unspecified key byte (70_reset_and_hazards.md R230, R235). -/
abbrev Memory := List Host.Cell

/-- What the host does in one step: one line of a host program (30_encoding.md R96, R97). The mark `busErrOk` is the
line's `-> BUSERR`: with it the host goes on after a BUSERR, without it a BUSERR is the host program's fault
(notes/assumptions/6.md). -/
inductive HostOp where
  /-- `RD address`: `MemRead(address, 8)` (20_memory.md R56). -/
  | rd (addr : BitVec 13) (busErrOk : Bool)
  /-- `WR address, data`: `MemWrite(address, 8, data)` (20_memory.md R57). -/
  | wr (addr : BitVec 13) (data : BitVec 64) (busErrOk : Bool)
  /-- One poll of the `WAIT` loop: read STATUS, and stay here while bit 0 of the value is 1 (30_encoding.md R97). -/
  | wait
  deriving DecidableEq, Repr

/-- Who takes a step (00_scope.md R19). -/
inductive Agent where
  | host
  | core
  | environment
  deriving DecidableEq, Repr

/-- The response to a host access (20_memory.md R55). -/
inductive Response where
  /-- OK, carrying the 64 bits of a read. -/
  | readOk (data : BitVec 64)
  /-- OK, to a write. -/
  | writeOk
  /-- BUSERR, carrying no data. -/
  | busErr
  deriving DecidableEq, Repr

/-- The contents of an instance of width `w`, and of its environment. The fields down to `pending` are the core's
(10_state.md R20); the rest are the model's own: which draws the free values are, and the environment (host program,
schedule, latest response). -/
structure Inst (w : Width) where
  /-- A, the first Word of the block (R22). -/
  a : Word w
  /-- B, the second Word of the block (R23). -/
  b : Word w
  /-- STATUS (R27). -/
  status : Status
  /-- KEY_LEN.KLEN, the key length in bytes (R31). -/
  keyLen : BitVec 8
  /-- S_LEN.SLEN, the number of valid words of S (R32). -/
  sLen : BitVec 10
  /-- Key RAM K and table RAM S (R33, R34): their specified bytes. -/
  mem : Memory
  /-- Buffer L (R35): which unspecified contents it has. -/
  lDraw : Nat
  /-- PENDING (R36): the command in flight, opcode and ROUNDS. -/
  pending : Option Instr
  /-- Model's own: which unspecified contents the bytes of K and S took at the last reset. -/
  ramDraw : Nat
  /-- Model's own: the lengths of the unspecified tables that EXPAND_KEY has left since the last reset, latest first;
  each has drawn the words of S below its length anew. -/
  tableDraws : List Nat
  /-- Model's own: how many commands have read an unspecified value; which draws their results are. -/
  resultDraw : Nat
  /-- Model's own: the host's accesses still to come, in program order (20_memory.md R64). -/
  prog : List HostOp
  /-- Model's own: who takes the next steps (20_memory.md R64). -/
  sched : List Agent
  /-- Model's own: the response to the host's latest access (20_memory.md R55). -/
  response : Option Response
  deriving DecidableEq, Repr

/-- The state: W, which ID.WIDTH reads (10_state.md R25), and everything an instance of that width holds. No step
changes W. -/
structure State where
  width : Width
  inst : Inst width
  deriving DecidableEq, Repr

/-- The same instance with its contents changed. -/
def State.map (s : State) (f : Inst s.width → Inst s.width) : State := ⟨s.width, f s.inst⟩

/-- Why a step stops. Each is a BUSERR (20_memory.md R55) on a host access that its program does not mark as
expecting one: the host program's fault (60_exceptions.md R207), raised by Machine/HostPort.lean, with the core's
state as it was. All are safe: the model stops where a host that ignores the BUSERR could go on, and that host is the
same line with the mark. -/
inductive Fault where
  /-- The address is not a multiple of 8 (20_memory.md R51). Raised by a host read or write. Safe. -/
  | misaligned
  /-- Nothing is mapped at the address (20_memory.md R54). Raised by a host read or write. Safe. -/
  | unmapped
  /-- The busy lock refuses the access (20_memory.md R58). Raised by a host read or write while BUSY = 1; and by the
  meaning of a command that reaches the core while another is pending, which no step does (30_encoding.md R93). Safe. -/
  | busyLock
  deriving DecidableEq, Repr

/-- Why the model has no answer. -/
inductive Refusal where
  /-- The instruction has no meaning yet; raised only by an arm of `exec`, and no arm does. Safe. -/
  | notModelled (mnemonic : String)
  deriving DecidableEq, Repr

/-- STATUS after reset: 0x00 (10_state.md R27). -/
def Status.afterReset : Status := { busy := false, done := false, err := false, errCode := 0 }

/-- The instance of width `w` right after reset (70_reset_and_hazards.md R230), with no host program. K, S and L are
unspecified: no byte is listed. The draws start at 0 and [] (DESIGN CHOICE, notes/assumptions/4.md). -/
def Inst.reset (w : Width) : Inst w where
  a := 0
  b := 0
  status := Status.afterReset
  keyLen := 0
  sLen := 0
  mem := []
  lDraw := 0
  pending := none
  ramDraw := 0
  tableDraws := []
  resultDraw := 0
  prog := []
  sched := []
  response := none

/-- The machine right after reset (70_reset_and_hazards.md R230), of the width Config names. -/
def State.reset : State := ⟨Config.resetWidth, Inst.reset Config.resetWidth⟩

end Sys2Proof.Machine
end

