-- ==== Sys2Proof/Machine/Flags.lean ====
section
/-! DEFINITION. STATUS: how it reads, and what acceptance, completion and an error write to it
(spec/10_state.md R27 to R30, spec/60_exceptions.md R200, R205). The core has no other flag (R38). -/

namespace Sys2Proof.Machine

open Sys2Proof

/-- The number of an error (60_exceptions.md R200). -/
def ErrCode.code : ErrCode → BitVec 4
  | .invalidRounds => 1
  | .tableTooShort => 2
  | .illegalCommand => 3

/-- STATUS as the host reads it: `zext_64({ERRCODE, 0b0, ERR, DONE, BUSY})` (20_memory.md R56). -/
def Status.word (st : Status) : BitVec 64 :=
  st.errCode.setWidth 64 <<< 4 ||| (BitVec.ofBool st.err).setWidth 64 <<< 2 |||
    (BitVec.ofBool st.done).setWidth 64 <<< 1 ||| (BitVec.ofBool st.busy).setWidth 64

/-- STATUS after acceptance (30_encoding.md R90). -/
def Status.accepted : Status := { busy := true, done := false, err := false, errCode := 0 }

/-- STATUS after completion: ERR and ERRCODE stay (30_encoding.md R92). -/
def Status.completed (st : Status) : Status := { st with busy := false, done := true }

/-- STATUS after an error report (60_exceptions.md R205). -/
def Status.rejected (e : ErrCode) : Status := { busy := false, done := true, err := true, errCode := e.code }

end Sys2Proof.Machine
end

