-- ==== Sys2Proof/Machine/Operands.lean ====
section
/-! DEFINITION. The Word datapath (spec/40_word_datapath.md R101 to R110), the rotator (spec/41_rotation.md R120,
R121), and the block's bytes (spec/10_state.md R24). -/

namespace Sys2Proof.Machine

open Sys2Proof

variable {w : Width}

/-- ADD_W, `x +w y` (R101). -/
def addW (x y : Word w) : Word w := x + y

/-- SUB_W, `x -w y` (R102). -/
def subW (x y : Word w) : Word w := x - y

/-- XOR_W (R103). -/
def xorW (x y : Word w) : Word w := x ^^^ y

/-- AND_W (R104). -/
def andW (x y : Word w) : Word w := x &&& y

/-- OR_W (R105). -/
def orW (x y : Word w) : Word w := x ||| y

/-- SHL_W (R106). An amount of W or more does not exist: it is refused by the type
(93_implementation_defined.md U1). -/
def shlW (x : Word w) (s : Fin w.bits) : Word w := x <<< s.val

/-- SHR_W (R107), logical. -/
def shrW (x : Word w) (s : Fin w.bits) : Word w := x >>> s.val

/-- ZEXT8_W (R108). -/
def zext8W (w : Width) (k : Byte) : Word w := k.setWidth w.bits

/-- P_W (R110). -/
def magicP : (w : Width) → Word w
  | .w8 => (0xB7 : BitVec 8)
  | .w16 => (0xB7E1 : BitVec 16)
  | .w32 => (0xB7E15163 : BitVec 32)
  | .w64 => (0xB7E151628AED2A6B : BitVec 64)

/-- Q_W (R110). -/
def magicQ : (w : Width) → Word w
  | .w8 => (0x9F : BitVec 8)
  | .w16 => (0x9E37 : BitVec 16)
  | .w32 => (0x9E3779B9 : BitVec 32)
  | .w64 => (0x9E3779B97F4A7C15 : BitVec 64)

/-- ROTL_W (R120): by `y mod W`, with no shift by 0 or by W. -/
def rotlW (x : Word w) (y : Nat) : Word w :=
  if h : y % w.bits = 0 then x
  else
    orW (shlW x ⟨y % w.bits, Nat.mod_lt _ w.bits_pos⟩)
      (shrW x ⟨w.bits - y % w.bits, Nat.sub_lt w.bits_pos (Nat.pos_of_ne_zero h)⟩)

/-- ROTR_W (R121): by `y mod W`, with no shift by 0 or by W. -/
def rotrW (x : Word w) (y : Nat) : Word w :=
  if h : y % w.bits = 0 then x
  else
    orW (shrW x ⟨y % w.bits, Nat.mod_lt _ w.bits_pos⟩)
      (shlW x ⟨w.bits - y % w.bits, Nat.sub_lt w.bits_pos (Nat.pos_of_ne_zero h)⟩)

/-- The n low byte lanes of a Word, least significant first (20_memory.md R61). -/
def bytesOfWord (x : Word w) : List Byte := bytesOfNat w.bytes x.toNat

/-- The Word of u bytes, least significant first (20_memory.md R61); none for any other number of bytes. The spec gives
a Word of u bytes only and no conversion of a value of 2^W or more (40_word_datapath.md R109), so both are refused and
nothing is truncated (notes/assumptions/18.md). -/
def wordOfBytes? (w : Width) (xs : List Byte) : Option (Word w) :=
  if xs.length = w.bytes then some (BitVec.ofNat w.bits (natOfBytes xs)) else none

/-- The register pair of a block of 2u bytes: the first u bytes are A, the next u are B, each little-endian
(10_state.md R24); none for any other number of bytes (notes/assumptions/18.md). -/
def blockOfBytes? (w : Width) (xs : List Byte) : Option (Word w × Word w) :=
  match wordOfBytes? w (xs.take w.bytes), wordOfBytes? w (xs.drop w.bytes) with
  | some a, some b => some (a, b)
  | _, _ => none

/-- The 2u bytes of a register pair (10_state.md R24). -/
def bytesOfBlock (ab : Word w × Word w) : List Byte := bytesOfWord ab.1 ++ bytesOfWord ab.2

end Sys2Proof.Machine
end

