-- ==== Sys2Proof/Machine/Ops.lean ====
section
/-! DEFINITION. The operations every command and every host access is made of: the bytes of K and S, the key, the
table, buffer L, the error report, acceptance and completion, and reset. -/

namespace Sys2Proof.Machine

open Sys2Proof

variable {w : Width}

/-! ### The specified bytes -/

/-- The byte listed at an address: none where it is unspecified. -/
def Memory.read : Memory → Nat → Option Byte
  | [], _ => none
  | (b, v) :: m, a => if a = b then some v else Memory.read m a

/-- Write one byte; the addresses stay strictly rising. -/
def Memory.write : Memory → Nat → Byte → Memory
  | [], a, v => [(a, v)]
  | (b, x) :: m, a, v =>
    if a = b then (a, v) :: m
    else if a < b then (a, v) :: (b, x) :: m
    else (b, x) :: Memory.write m a v

/-- Write the `n` low byte lanes of an integer at consecutive addresses, lane 0 lowest (20_memory.md R60). -/
def Memory.writeLanes (m : Memory) (a : Nat) : Nat → Nat → Memory
  | 0, _ => m
  | n + 1, v => (Memory.writeLanes m (a + 1) n (v / 256)).write a (BitVec.ofNat 8 v)

/-- The byte address of K[k] (20_memory.md R53). -/
def keyAddr (k : Nat) : Nat := 0x800 + 8 * k

/-- The byte address of S[i] (20_memory.md R53). -/
def tableAddr (i : Nat) : Nat := 0x1000 + 8 * i

/-- The byte addresses that hold a byte of K or S on an instance of width `w`: byte lane 0 of K's slots, byte lanes
0 to u-1 of S's slots (10_state.md R33, R34, 20_memory.md R52, R53). -/
def isRamByte (w : Width) (a : Nat) : Bool :=
  (decide (0x800 ≤ a ∧ a < 0xFF8) && decide (a % 8 = 0)) ||
  (decide (0x1000 ≤ a ∧ a < 0x2000) && decide (a % 8 < w.bytes))

/-- All addresses listed are at least `lo` and strictly rise. -/
def Memory.rising : Nat → Memory → Bool
  | _, [] => true
  | lo, (a, _) :: m => decide (lo ≤ a) && Memory.rising (a + 1) m

/-- The canonical form: addresses strictly rise and every one is a byte of K or S. What an unlisted byte reads as is
a free value, so no entry stands for it. -/
def Memory.wf (w : Width) (m : Memory) : Bool :=
  Memory.rising 0 m && m.all (fun c => isRamByte w c.1)

/-- Whether a byte address holds a byte of S[0..n-1] on an instance of width `w` (20_memory.md R52, R53). -/
def inTable (w : Width) (n a : Nat) : Bool := decide (tableAddr 0 ≤ a ∧ a < tableAddr n ∧ a % 8 < w.bytes)

/-- S[0..n-1] become unspecified: no byte of them stays listed. -/
def Memory.dropTable (w : Width) (m : Memory) (n : Nat) : Memory := m.filter (fun c => !inTable w n c.1)

/-! ### K, S and L -/

/-- How many unspecified tables have been left over a byte since the last reset. -/
def Inst.redraws (s : Inst w) (a : Nat) : Nat := s.tableDraws.countP (fun n => inTable w n a)

/-- One byte of K or S: as listed, or a free value where it is unspecified (92_eei_decisions.md D24,
notes/assumptions/2.md). -/
def Inst.readByte (s : Inst w) (a : Nat) : Byte :=
  (s.mem.read a).getD (Config.ramByte s.ramDraw (s.redraws a) a)

/-- The integer in `n` byte lanes from an address, lane 0 lowest (20_memory.md R60). -/
def Inst.readLanes (s : Inst w) (a : Nat) : Nat → Nat
  | 0 => 0
  | n + 1 => (s.readByte a).toNat + 256 * s.readLanes (a + 1) n

/-- `K[k]` (10_state.md R33). -/
def Inst.readKey (s : Inst w) (k : Nat) : Byte := s.readByte (keyAddr k)

/-- `K[k] <- v` (10_state.md R33). -/
def Inst.writeKey (s : Inst w) (k : Nat) (v : Byte) : Inst w :=
  { s with mem := s.mem.write (keyAddr k) v }

/-- `S[i]` (10_state.md R34). -/
def Inst.readTable (s : Inst w) (i : Nat) : Word w :=
  BitVec.ofNat w.bits (s.readLanes (tableAddr i) w.bytes)

/-- S[i], S[i+1], ... <- words, in the listed bytes (10_state.md R34). -/
def Memory.writeTable (m : Memory) (i : Nat) : List (Word w) → Memory
  | [] => m
  | x :: xs => (Memory.writeTable m (i + 1) xs).writeLanes (tableAddr i) w.bytes x.toNat

/-- `S[i], S[i+1], ... <- xs` (10_state.md R34). -/
def Inst.writeTable (s : Inst w) (i : Nat) (xs : List (Word w)) : Inst w :=
  { s with mem := s.mem.writeTable i xs }

/-- `L[j]`, between commands (10_state.md R35): unspecified (notes/assumptions/3.md). -/
def Inst.readBuffer (s : Inst w) (j : Nat) : Word w :=
  (Config.bufferWord s.lDraw j).setWidth w.bits

/-- ID: WIDTH in bits [7:0], RMAX in bits [15:8], so `W | 0xFF00` (10_state.md R25). -/
def idWord (w : Width) : BitVec 64 :=
  BitVec.ofNat 64 Config.roundsMax <<< 8 ||| BitVec.ofNat 64 w.bits

/-- `KEY_LEN.KLEN <- v` (10_state.md R31). -/
def Inst.writeKeyLen (s : Inst w) (v : BitVec 8) : Inst w := { s with keyLen := v }

/-- A host write of S_LEN, write-any-read-legal: a value above 512 leaves it unchanged (10_state.md R32). -/
def Inst.writeSLen (s : Inst w) (v : BitVec 10) : Inst w :=
  if v.toNat ≤ Config.tableMax then { s with sLen := v } else s

/-- `A <- x` (10_state.md R22). -/
def Inst.writeA (s : Inst w) (x : Word w) : Inst w := { s with a := x }

/-- `B <- x` (10_state.md R23). -/
def Inst.writeB (s : Inst w) (x : Word w) : Inst w := { s with b := x }

/-! ### Unspecified operands and results -/

/-- Whether K[0..b-1], the key bytes that EXPAND_KEY reads, are all specified (70_reset_and_hazards.md R235). -/
def Inst.keySpecified (s : Inst w) : Bool :=
  (List.range s.keyLen.toNat).all (fun k => (s.mem.read (keyAddr k)).isSome)

/-- Whether S[i] is specified, in every byte (70_reset_and_hazards.md R235). -/
def Inst.wordSpecified (s : Inst w) (i : Nat) : Bool :=
  (List.range w.bytes).all (fun m => (s.mem.read (tableAddr i + m)).isSome)

/-- Whether S[0..2r+1], the words that ENCRYPT and DECRYPT read, are all specified (70_reset_and_hazards.md R235). -/
def Inst.tableSpecified (s : Inst w) (rounds : Nat) : Bool :=
  (List.range (2 * (rounds + 1))).all s.wordSpecified

/-- The next free Words, for A (n = 0) and B (n = 1) (notes/assumptions/21.md). -/
def Inst.drawnWord (s : Inst w) (n : Nat) : Word w := (Config.resultWord s.resultDraw n).setWidth w.bits

/-- A and B become unspecified (70_reset_and_hazards.md R235): each is a free value. -/
def Inst.drawBlock (s : Inst w) : Inst w :=
  { s with a := s.drawnWord 0, b := s.drawnWord 1, resultDraw := s.resultDraw + 1 }

/-- S[0..n-1] and S_LEN become unspecified (70_reset_and_hazards.md R235): each is a free value, S_LEN a legal one
(10_state.md R32). -/
def Inst.drawTable (s : Inst w) (n : Nat) : Inst w :=
  { s with
    mem := s.mem.dropTable w n
    tableDraws := n :: s.tableDraws
    sLen := BitVec.ofNat 10 (Config.resultLength s.resultDraw).val
    resultDraw := s.resultDraw + 1 }

/-! ### The steps of a command -/

/-- `raise Error(code)` (60_exceptions.md R205), the whole of the core's trap entry: STATUS reports the error and
nothing else changes. Nothing returns from it (R206): the report stays until the next accepted command, the next
error or reset. -/
def raiseError (e : ErrCode) (s : Inst w) : Inst w := { s with status := Status.rejected e }

/-- The end of `Accept(v)` for a command whose check passes (30_encoding.md R90). -/
def accept (i : Instr) (s : Inst w) : Inst w :=
  { s with pending := some i, status := Status.accepted }

/-- The end of `Complete()` (30_encoding.md R92). -/
def finish (s : Inst w) : Inst w :=
  { s with pending := none, status := s.status.completed }

/-- A command (notes/assumptions/8.md). With no command pending this is its acceptance: its check decides between an
error report and PENDING (30_encoding.md R90). With this command pending it is its completion (R92). With another
command pending it is turned away by the busy lock (20_memory.md R58); no step does that. -/
def command (i : Instr) (check : Option ErrCode) (effect : Inst w → Inst w) (s : Inst w) :
    Host.Outcome (Inst w) Fault Refusal :=
  match s.pending with
  | none =>
    match check with
    | none => .next (accept i s)
    | some e => .next (raiseError e s)
  | some j => if j = i then .next (finish (effect s)) else .fault .busyLock

/-- The outcome of a step of an instance, as an outcome of the machine. -/
def State.lift : Host.Outcome (Inst w) Fault Refusal → Host.Outcome State Fault Refusal
  | .next s => .next ⟨w, s⟩
  | .fault e => .fault e
  | .refused r => .refused r

/-! ### Reset -/

/-- `Reset()` (70_reset_and_hazards.md R230). K, S and L are unspecified from here on and not what they were before:
no byte is listed and their draws are new. The host program goes on (R233, notes/assumptions/12.md). -/
def resetStep (s : Inst w) : Inst w :=
  { s with
    a := 0
    b := 0
    status := Status.afterReset
    keyLen := 0
    sLen := 0
    mem := []
    lDraw := s.lDraw + 1
    pending := none
    ramDraw := s.ramDraw + 1
    tableDraws := [] }

end Sys2Proof.Machine
end

