-- ==== Sys2Proof/Machine/Block.lean ====
section
/-! DEFINITION. The block transforms, ENCRYPT and DECRYPT (spec/43_block_transforms.md). -/

namespace Sys2Proof.Machine

open Sys2Proof

variable {w : Width}

/-- Round i of ENC (R170): the second half-round reads the A just computed. -/
def encRound (table : Nat → Word w) (i : Nat) (ab : Word w × Word w) : Word w × Word w :=
  let a := addW (rotlW (xorW ab.1 ab.2) ab.2.toNat) (table (2 * i))
  let b := addW (rotlW (xorW ab.2 a) a.toNat) (table (2 * i + 1))
  (a, b)

/-- Rounds 1 to n of ENC, in that order (R170). -/
def encRounds (table : Nat → Word w) : Nat → Word w × Word w → Word w × Word w
  | 0, ab => ab
  | n + 1, ab => encRound table (n + 1) (encRounds table n ab)

/-- `ENC(A, B, r)` (R170). -/
def enc (table : Nat → Word w) (rounds : Nat) (ab : Word w × Word w) : Word w × Word w :=
  encRounds table rounds (addW ab.1 (table 0), addW ab.2 (table 1))

/-- Round i of DEC (R171): the second half-round reads the B just computed. -/
def decRound (table : Nat → Word w) (i : Nat) (ab : Word w × Word w) : Word w × Word w :=
  let b := xorW (rotrW (subW ab.2 (table (2 * i + 1))) ab.1.toNat) ab.1
  let a := xorW (rotrW (subW ab.1 (table (2 * i))) b.toNat) b
  (a, b)

/-- Rounds n down to 1 of DEC, in that order (R171). -/
def decRounds (table : Nat → Word w) : Nat → Word w × Word w → Word w × Word w
  | 0, ab => ab
  | n + 1, ab => decRounds table n (decRound table (n + 1) ab)

/-- `DEC(A, B, r)` (R171). -/
def dec (table : Nat → Word w) (rounds : Nat) (ab : Word w × Word w) : Word w × Word w :=
  let x := decRounds table rounds ab
  (subW x.1 (table 0), subW x.2 (table 1))

/-- `Check_BLOCK(rounds)` (R175), on integers. -/
def checkBlock (rounds : Nat) (s : Inst w) : Option ErrCode :=
  if s.sLen.toNat < 2 * (rounds + 1) then some .tableTooShort else none

/-- (A, B) <- a pair of Words. -/
def Inst.writeBlock (s : Inst w) (ab : Word w × Word w) : Inst w :=
  { s with a := ab.1, b := ab.2 }

/-- A command that reads S[0..2r+1] and writes a block: with an unspecified word among them, both A and B are
unspecified (R176, 70_reset_and_hazards.md R235, 93_implementation_defined.md U4). -/
def blockEffect (rounds : Nat) (result : Word w × Word w) (s : Inst w) : Inst w :=
  if s.tableSpecified rounds then s.writeBlock result else s.drawBlock

/-- `Exec_ENCRYPT(rounds)` (R176). -/
def encryptEffect (rounds : Nat) (s : Inst w) : Inst w :=
  blockEffect rounds (enc s.readTable rounds (s.a, s.b)) s

/-- `Exec_DECRYPT(rounds)` (R177). -/
def decryptEffect (rounds : Nat) (s : Inst w) : Inst w :=
  blockEffect rounds (dec s.readTable rounds (s.a, s.b)) s

/-- ENCRYPT (R176). -/
def execEncrypt (rounds : Nat) (s : State) : Host.Outcome State Fault Refusal :=
  State.lift (command (.encrypt rounds) (checkBlock rounds s.inst) (encryptEffect rounds) s.inst)

/-- DECRYPT (R177). -/
def execDecrypt (rounds : Nat) (s : State) : Host.Outcome State Fault Refusal :=
  State.lift (command (.decrypt rounds) (checkBlock rounds s.inst) (decryptEffect rounds) s.inst)

end Sys2Proof.Machine
end

