-- ==== Sys2Proof/Machine/KeySchedule.lean ====
section
/-! DEFINITION. The key schedule and EXPAND_KEY (spec/42_key_schedule.md). -/

namespace Sys2Proof.Machine

open Sys2Proof

variable {w : Width}

/-- The table length `t = 2*(r+1)` (R141). -/
def tableLength (rounds : Nat) : Nat := 2 * (rounds + 1)

/-- The buffer length `c = max(1, ceil(8*b/W))` (R142). -/
def bufferLength (w : Width) (b : Nat) : Nat := max 1 ((8 * b + w.bits - 1) / w.bits)

/-- The number of mixing iterations (R145, R147). -/
def mixCount (t c : Nat) : Nat := 3 * max t c

/-- One turn of PACK: key byte `idx` goes to slot `idx / u` (R143). -/
def packByte (idx : Nat) (k : Byte) (l : List (Word w)) : List (Word w) :=
  l.modify (idx / w.bytes) (fun x => addW (rotlW x 8) (zext8W w k))

/-- The loop of PACK, from index n-1 down to 0 (R143). -/
def packLoop (key : Nat → Byte) : Nat → List (Word w) → List (Word w)
  | 0, l => l
  | n + 1, l => packLoop key n (packByte n (key n) l)

/-- PACK (R143): `L[0..c-1]` from the key bytes, starting from zeros. -/
def pack (w : Width) (key : Nat → Byte) (b : Nat) : List (Word w) :=
  packLoop key b (List.replicate (bufferLength w b) 0)

/-- The loop of INIT: n words, the first `x`, each `Q_W` above the one before (R144). -/
def initLoop : Nat → Word w → List (Word w)
  | 0, _ => []
  | n + 1, x => x :: initLoop n (addW x (magicQ w))

/-- INIT (R144): `S[0..t-1]`. -/
def initTable (w : Width) (t : Nat) : List (Word w) := initLoop t (magicP w)

/-- The variables of MIX (R145). KA and KB are local to it, not the registers A and B. -/
structure Mixing (w : Width) where
  i : Nat
  j : Nat
  ka : Word w
  kb : Word w
  s : List (Word w)
  l : List (Word w)
  deriving DecidableEq, Repr

/-- One iteration of MIX (R145): the second statement reads the KA just computed (00_scope.md R16); i and j advance
each by 1, modulo t and c (90_conflicts.md C1). -/
def mixStep (t c : Nat) (m : Mixing w) : Mixing w :=
  let ka := rotlW (addW (addW (m.s.getD m.i 0) m.ka) m.kb) 3
  let kb := rotlW (addW (addW (m.l.getD m.j 0) ka) m.kb) (addW ka m.kb).toNat
  { i := (m.i + 1) % t
    j := (m.j + 1) % c
    ka := ka
    kb := kb
    s := m.s.set m.i ka
    l := m.l.set m.j kb }

/-- n iterations of MIX (R145). -/
def mixLoop (t c : Nat) : Nat → Mixing w → Mixing w
  | 0, m => m
  | n + 1, m => mixLoop t c n (mixStep t c m)

/-- MIX's start: i = j = 0 and KA = KB = 0 (R145). -/
def Mixing.start (s l : List (Word w)) : Mixing w := { i := 0, j := 0, ka := 0, kb := 0, s := s, l := l }

/-- The table of a key and a round count: PACK, INIT and MIX (R140, R149). -/
def expandedTable (w : Width) (key : Nat → Byte) (b rounds : Nat) : List (Word w) :=
  let t := tableLength rounds
  let c := bufferLength w b
  (mixLoop t c (mixCount t c) (Mixing.start (initTable w t) (pack w key b))).s

/-- `Check_EXPAND_KEY(rounds)` (R146). -/
def checkExpandKey (rounds : Nat) : Option ErrCode :=
  if Config.roundsMax < rounds then some .invalidRounds else none

/-- S[0..t-1] and S_LEN <- the expanded key (R149). -/
def Inst.writeExpandedKey (s : Inst w) (rounds : Nat) : Inst w :=
  { s.writeTable 0 (expandedTable w s.readKey s.keyLen.toNat rounds) with
    sLen := BitVec.ofNat 10 (tableLength rounds) }

/-- L becomes unspecified (10_state.md R35). -/
def Inst.drawBuffer (s : Inst w) : Inst w := { s with lDraw := s.lDraw + 1 }

/-- `Exec_EXPAND_KEY(rounds)` (R149): S[0..t-1] and S_LEN are written, S[t..511] kept, and L is unspecified from
here on (10_state.md R35). With an unspecified key byte, all that is written is unspecified
(70_reset_and_hazards.md R235, 93_implementation_defined.md U4). -/
def expandKeyEffect (rounds : Nat) (s : Inst w) : Inst w :=
  (if s.keySpecified then s.writeExpandedKey rounds else s.drawTable (tableLength rounds)).drawBuffer

/-- EXPAND_KEY (R149). -/
def execExpandKey (rounds : Nat) (s : State) : Host.Outcome State Fault Refusal :=
  State.lift (command (.expandKey rounds) (checkExpandKey rounds) (expandKeyEffect rounds) s.inst)

end Sys2Proof.Machine
end

