-- ==== Sys2Proof/Machine/Rotation.lean ====
section
/-! DEFINITION. ROTL and ROTR (spec/41_rotation.md R126, R127). -/

namespace Sys2Proof.Machine

open Sys2Proof

/-- `Exec_ROTL()` (R126): `A <- ROTL_W(A, B)`. -/
def rotlEffect {w : Width} (s : Inst w) : Inst w := s.writeA (rotlW s.a s.b.toNat)

/-- `Exec_ROTR()` (R127): `A <- ROTR_W(A, B)`. -/
def rotrEffect {w : Width} (s : Inst w) : Inst w := s.writeA (rotrW s.a s.b.toNat)

/-- ROTL (R126): no check; ROUNDS is ignored. -/
def execRotl (rounds : Nat) (s : State) : Host.Outcome State Fault Refusal :=
  State.lift (command (.rotl rounds) none rotlEffect s.inst)

/-- ROTR (R127): no check; ROUNDS is ignored. -/
def execRotr (rounds : Nat) (s : State) : Host.Outcome State Fault Refusal :=
  State.lift (command (.rotr rounds) none rotrEffect s.inst)

end Sys2Proof.Machine
end

