-- ==== Sys2Proof/Machine/Dispatch.lean ====
section
/-! DEFINITION. The meaning of each command (spec/30_encoding.md R84), one arm per constructor of `Instr`. -/

namespace Sys2Proof.Machine

open Sys2Proof

def exec (i : Instr) (s : State) : Host.Outcome State Fault Refusal :=
  match i with
  | .expandKey rounds => Sys2Proof.Machine.execExpandKey rounds s
  | .encrypt rounds => Sys2Proof.Machine.execEncrypt rounds s
  | .decrypt rounds => Sys2Proof.Machine.execDecrypt rounds s
  | .rotl rounds => Sys2Proof.Machine.execRotl rounds s
  | .rotr rounds => Sys2Proof.Machine.execRotr rounds s

end Sys2Proof.Machine
end

