-- ==== Sys2Proof/Machine/HostPort.lean ====
section
/-! DEFINITION. The host register space (spec/20_memory.md R50 to R59) and the steps of the three agents. -/

namespace Sys2Proof.Machine

open Sys2Proof

variable {w : Width}

/-- What is mapped at an address of the host register space (20_memory.md R53). -/
inductive Slot where
  | id
  | cmd
  | status
  | keyLen
  | sLen
  | regA
  | regB
  | key (k : Fin 255)
  | table (i : Fin 512)
  deriving DecidableEq, Repr

/-- The address of a slot (20_memory.md R53). -/
def Slot.addr : Slot → BitVec 13
  | .id => 0x0000
  | .cmd => 0x0008
  | .status => 0x0010
  | .keyLen => 0x0018
  | .sLen => 0x0020
  | .regA => 0x0028
  | .regB => 0x0030
  | .key k => BitVec.ofNat 13 (keyAddr k)
  | .table i => BitVec.ofNat 13 (tableAddr i)

/-- The slot at an address: a misaligned address first (20_memory.md R51), then a hole of the map (R54). -/
def slotAt (addr : BitVec 13) : Except Fault Slot :=
  if addr.toNat % 8 ≠ 0 then .error .misaligned
  else if h : 0x1000 ≤ addr.toNat then .ok (.table ⟨(addr.toNat - 0x1000) / 8, by omega⟩)
  else if h : 0x800 ≤ addr.toNat ∧ addr.toNat < 0xFF8 then .ok (.key ⟨(addr.toNat - 0x800) / 8, by omega⟩)
  else
    match addr.toNat with
    | 0x0000 => .ok .id
    | 0x0008 => .ok .cmd
    | 0x0010 => .ok .status
    | 0x0018 => .ok .keyLen
    | 0x0020 => .ok .sLen
    | 0x0028 => .ok .regA
    | 0x0030 => .ok .regB
    | _ => .error .unmapped

/-- The slots whose reads the busy lock refuses: S_LEN, A, B and S (20_memory.md R58). -/
def Slot.lockedRead : Slot → Bool
  | .id => false
  | .cmd => false
  | .status => false
  | .keyLen => false
  | .sLen => true
  | .regA => true
  | .regB => true
  | .key _ => false
  | .table _ => true

/-- What a slot reads as (20_memory.md R56), zero-extended (R52). -/
def Slot.value (slot : Slot) (s : Inst w) : BitVec 64 :=
  match slot with
  | .id => idWord w
  | .cmd => 0
  | .status => s.status.word
  | .keyLen => s.keyLen.setWidth 64
  | .sLen => s.sLen.setWidth 64
  | .regA => s.a.setWidth 64
  | .regB => s.b.setWidth 64
  | .key k => (s.readKey k).setWidth 64
  | .table i => (s.readTable i).setWidth 64

/-- `MemRead(addr, 8)` (20_memory.md R56): the data of an OK response, or why the response is BUSERR. -/
def memRead (addr : BitVec 13) (s : Inst w) : Except Fault (BitVec 64) :=
  match slotAt addr with
  | .error e => .error e
  | .ok slot =>
    if s.status.busy && slot.lockedRead then .error .busyLock else .ok (slot.value s)

/-- `Accept(v)` (30_encoding.md R90): an illegal opcode is reported first (60_exceptions.md R203, R208), and every
other command word runs its command. -/
def acceptWord (v : BitVec 64) (s : State) : Host.Outcome State Fault Refusal :=
  match decodeWord v with
  | .error _ => .next (s.map (raiseError .illegalCommand))
  | .ok i => exec i s

/-- What a write to a slot does while BUSY = 0 (20_memory.md R57): the low bits of the data are written (R52), ID and
STATUS ignore it, CMD starts a command. -/
def Slot.store (slot : Slot) (v : BitVec 64) (s : State) : Host.Outcome State Fault Refusal :=
  match slot with
  | .id => .next s
  | .cmd => acceptWord v s
  | .status => .next s
  | .keyLen => .next (s.map (·.writeKeyLen (v.setWidth 8)))
  | .sLen => .next (s.map (·.writeSLen (v.setWidth 10)))
  | .regA => .next (s.map (·.writeA (v.setWidth s.width.bits)))
  | .regB => .next (s.map (·.writeB (v.setWidth s.width.bits)))
  | .key k => .next (s.map (·.writeKey k (v.setWidth 8)))
  | .table i => .next (s.map (·.writeTable i [v.setWidth s.width.bits]))

/-- Record the response to the host's access (20_memory.md R55). -/
def Inst.respond (s : Inst w) (r : Response) : Inst w := { s with response := some r }

/-- The host goes on to the rest of its program. -/
def Inst.advance (s : Inst w) (rest : List HostOp) : Inst w := { s with prog := rest }

/-- The schedule goes on. -/
def Inst.reschedule (s : Inst w) (later : List Agent) : Inst w := { s with sched := later }

/-- A BUSERR (20_memory.md R55): no state of the core changes. A line marked as expecting it goes on; on any other
it is the host program's fault (60_exceptions.md R207, notes/assumptions/6.md). -/
def busError (why : Fault) (busErrOk : Bool) (s : State) : Host.Outcome State Fault Refusal :=
  if busErrOk then .next (s.map (·.respond .busErr)) else .fault why

/-- One host read (20_memory.md R56). -/
def hostRead (addr : BitVec 13) (busErrOk : Bool) (s : State) : Host.Outcome State Fault Refusal :=
  match memRead addr s.inst with
  | .ok data => .next (s.map (·.respond (.readOk data)))
  | .error e => busError e busErrOk s

/-- One host write, `MemWrite(addr, 8, v)` (20_memory.md R57), its checks in the order of 60_exceptions.md R208. The
response to a write that passes them is OK, an error report of the command included. -/
def hostWrite (addr : BitVec 13) (v : BitVec 64) (busErrOk : Bool) (s : State) :
    Host.Outcome State Fault Refusal :=
  match slotAt addr with
  | .error e => busError e busErrOk s
  | .ok slot =>
    if s.inst.status.busy then busError .busyLock busErrOk s
    else slot.store v (s.map (·.respond .writeOk))

/-- One poll of `WAIT` (30_encoding.md R97): the host reads STATUS and stays at the loop while bit 0 is 1. -/
def hostWait (rest : List HostOp) (s : State) : Host.Outcome State Fault Refusal :=
  match memRead Slot.status.addr s.inst with
  | .ok data =>
    if data.getLsbD 0 then .next (s.map (·.respond (.readOk data)))
    else .next (s.map (fun x => (x.respond (.readOk data)).advance rest))
  | .error e => .fault e

/-- The host's step: the next access of its program. A host with no access left takes no step, and the core holds its
state (60_exceptions.md R224, notes/assumptions/7.md). -/
def hostStep (s : State) : Host.Outcome State Fault Refusal :=
  match s.inst.prog with
  | [] => .next s
  | .rd addr busErrOk :: rest => hostRead addr busErrOk (s.map (·.advance rest))
  | .wr addr v busErrOk :: rest => hostWrite addr v busErrOk (s.map (·.advance rest))
  | .wait :: rest => hostWait rest s

/-- The core's step, `Complete()` (30_encoding.md R92). With nothing pending it is not enabled and the core takes no
step (notes/assumptions/7.md). -/
def coreStep (s : State) : Host.Outcome State Fault Refusal :=
  match s.inst.pending with
  | none => .next s
  | some i => exec i s

/-- The step of one agent (00_scope.md R19). -/
def agentStep (ag : Agent) (s : State) : Host.Outcome State Fault Refusal :=
  match ag with
  | .host => hostStep s
  | .core => coreStep s
  | .environment => .next (s.map resetStep)

/-- Who moves when the schedule is empty: the core while a command is pending, else the host. This is the weak
fairness of 70_reset_and_hazards.md R250 (notes/assumptions/5.md). -/
def defaultAgent (s : State) : Agent :=
  match s.inst.pending with
  | none => .host
  | some _ => .core

end Sys2Proof.Machine
end

