-- ==== Sys2Proof/Machine/Step.lean ====
section
/-! DEFINITION. One step of the machine (spec/20_memory.md R64): the schedule in State says which agent takes it. -/

namespace Sys2Proof.Machine

open Sys2Proof

/-- One step: of the agent the schedule names next, or of `defaultAgent` when the schedule is empty. -/
def step (s : State) : Host.Outcome State Fault Refusal :=
  match s.inst.sched with
  | [] => agentStep (defaultAgent s) s
  | ag :: later => agentStep ag (s.map (·.reschedule later))

/-- `s` with a host about to write the command word `w` to CMD: the very next step is that write, which runs the
command while no command is pending (notes/assumptions/10.md). -/
def State.withFetchWord (s : State) (nbits w : Nat) : State :=
  s.map fun x =>
    { x with
      prog := .wr Slot.cmd.addr (tableWord nbits w) false :: x.prog
      sched := .host :: x.sched }

end Sys2Proof.Machine
end

