-- ==== Sys2Proof/Machine/HostProgram.lean ====
section
/-! DEFINITION. Host programs: the lines of spec/30_encoding.md R96 and the pseudo-instructions of R97. -/

namespace Sys2Proof.Machine

open Sys2Proof

/-- A line of a host program. The Bool is the mark `-> BUSERR`, which R96 gives to `WR` and `RD`. That a
pseudo-instruction may carry it too, all but `WAIT`, is the model's choice: R97 is silent, and 95_test_vectors.md P6
line 8 is a `ROTR` answered BUSERR (notes/assumptions/20.md). R97 gives the operands of `LOADKEY` and `LOADTABLE` no
width: that each is any value of 64 bits, as R96 lets a `WR` have, is the model's choice too
(notes/assumptions/22.md). -/
inductive Line where
  /-- `WR <register or array entry>, value` -/
  | wr (target : Slot) (v : BitVec 64) (busErr : Bool)
  /-- `RD <register or array entry>` -/
  | rd (target : Slot) (busErr : Bool)
  /-- `WR <literal byte address>, value` -/
  | wrAt (addr : BitVec 13) (v : BitVec 64) (busErr : Bool)
  /-- `RD <literal byte address>` -/
  | rdAt (addr : BitVec 13) (busErr : Bool)
  | expandKey (r : BitVec 16) (busErr : Bool)
  | encrypt (r : BitVec 16) (busErr : Bool)
  | decrypt (r : BitVec 16) (busErr : Bool)
  | rotl (busErr : Bool)
  | rotr (busErr : Bool)
  | wait
  /-- `LOADKEY k0, ..., k(b-1)`, b at most 255 -/
  | loadKey (ks : List (BitVec 64)) (busErr : Bool)
  /-- `LOADTABLE s0, ..., s(n-1)`, n at most 512 -/
  | loadTable (ws : List (BitVec 64)) (busErr : Bool)
  deriving DecidableEq, Repr

/-- `WR CMD, (r << 8) | opc` (R97). -/
def writeCmd (r : BitVec 16) (opc : BitVec 64) (busErr : Bool) : HostOp :=
  .wr Slot.cmd.addr (r.setWidth 64 <<< 8 ||| opc) busErr

/-- `WR K[k], k0; WR K[k+1], k1; ...` (R97). -/
def writeKeys (busErr : Bool) (k : Nat) : List (BitVec 64) → List HostOp
  | [] => []
  | x :: xs => .wr (BitVec.ofNat 13 (keyAddr k)) x busErr :: writeKeys busErr (k + 1) xs

/-- `WR S[i], s0; WR S[i+1], s1; ...` (R97). -/
def writeWords (busErr : Bool) (i : Nat) : List (BitVec 64) → List HostOp
  | [] => []
  | x :: xs => .wr (BitVec.ofNat 13 (tableAddr i)) x busErr :: writeWords busErr (i + 1) xs

/-- The accesses a line stands for (R96, R97). A pseudo-instruction's mark stands at each of its accesses
(DESIGN CHOICE, notes/assumptions/20.md). -/
def Line.expand : Line → List HostOp
  | .wr t v e => [.wr t.addr v e]
  | .rd t e => [.rd t.addr e]
  | .wrAt a v e => [.wr a v e]
  | .rdAt a e => [.rd a e]
  | .expandKey r e => [writeCmd r 0x1 e]
  | .encrypt r e => [writeCmd r 0x2 e]
  | .decrypt r e => [writeCmd r 0x3 e]
  | .rotl e => [.wr Slot.cmd.addr 0x4 e]
  | .rotr e => [.wr Slot.cmd.addr 0x5 e]
  | .wait => [.wait]
  | .loadKey ks e => writeKeys e 0 ks ++ [.wr Slot.keyLen.addr (BitVec.ofNat 64 ks.length) e]
  | .loadTable ws e => writeWords e 0 ws ++ [.wr Slot.sLen.addr (BitVec.ofNat 64 ws.length) e]

/-- The host program of a list of lines. -/
def hostProgram (lines : List Line) : List HostOp := (lines.map Line.expand).flatten

end Sys2Proof.Machine
end

