-- ==== Sys2Proof/Safety.lean ====
section
/-! DEFINITION. What holds in every state a run reaches, in the terms the statements use. -/

namespace Sys2Proof.Machine

open Sys2Proof

variable {w : Width}

/-- The legal combinations of BUSY, DONE, ERR and ERRCODE (10_state.md R27): ERRCODE is 0 without an error and 1, 2 or
3 with one (60_exceptions.md R200). -/
def Status.legal (st : Status) : Bool :=
  match st.busy, st.done, st.err with
  | false, false, false => decide (st.errCode = 0)
  | true, false, false => decide (st.errCode = 0)
  | false, true, false => decide (st.errCode = 0)
  | false, true, true => decide (1 ≤ st.errCode.toNat ∧ st.errCode.toNat ≤ 3)
  | _, _, _ => false

/-- The check of a command at acceptance (30_encoding.md R90). -/
def commandCheck (i : Instr) (s : Inst w) : Option ErrCode :=
  match i with
  | .expandKey r => checkExpandKey r
  | .encrypt r => checkBlock r s
  | .decrypt r => checkBlock r s
  | .rotl _ => none
  | .rotr _ => none

/-- The agent that takes the next step. -/
def State.mover (s : State) : Agent :=
  match s.inst.sched with
  | [] => defaultAgent s
  | ag :: _ => ag

/-- The next step is the host's, and it is a write to `addr`. -/
def State.hostWrites (s : State) (addr : BitVec 13) : Prop :=
  s.mover = .host ∧ ∃ v mark rest, s.inst.prog = .wr addr v mark :: rest

/-- The next step is the core's, and it is the completion of `i`. -/
def State.completes (s : State) (i : Instr) : Prop :=
  s.mover = .core ∧ s.inst.pending = some i

/-- The invariant of every step. -/
structure Inst.Inv (s : Inst w) : Prop where
  /-- STATUS is one of the legal combinations (10_state.md R27). -/
  status_legal : s.status.legal = true
  /-- BUSY = 1 exactly when PENDING is not none (10_state.md R28). -/
  busy_iff_pending : s.status.busy = s.pending.isSome
  /-- SLEN is at most 512 (10_state.md R32). -/
  sLen_le : s.sLen.toNat ≤ Config.tableMax
  /-- The listed bytes are in canonical form, and all of them are bytes of K or S. -/
  mem_wf : Memory.wf w s.mem = true
  /-- A pending command has passed its check, and passes it still (20_memory.md R58, R62). -/
  pending_checked : ∀ i, s.pending = some i → i.wellFormed = true ∧ commandCheck i s = none

/-- The outcome of n steps, one after the other; a fault or a refusal ends them. -/
def steps : Nat → State → Host.Outcome State Fault Refusal
  | 0, s => .next s
  | n + 1, s =>
    match step s with
    | .next t => steps n t
    | .fault e => .fault e
    | .refused r => .refused r

/-- The contents with the environment's part of others: host program, schedule and latest response. Two contents that
agree up to this hold the same core. -/
def Inst.withHostOf (s t : Inst w) : Inst w :=
  { s with prog := t.prog, sched := t.sched, response := t.response }

end Sys2Proof.Machine
end

