-- ==== Sys2Proof/Certificates/Slice0/Obligations.lean ====
section
/-! DEFINITION. The statements about the model, one definition each (OBLIGATIONS.json lists them). -/

open Sys2Proof Sys2Proof.Machine

/-! ### Encoding -/

/-- Decoding an encoded well-formed command gives it back, as a word and as 8 byte lanes; and every word that decodes
to it is its encoding up to the reserved bits (30_encoding.md R81 to R84). -/
def Obligations.DecodeOfEncodeIsIdentity : Prop :=
  ∀ i : Instr, i.wellFormed = true →
    decodeWord (encode i) = .ok i ∧ decode (encodeBytes i) = .ok i ∧
      ∀ v : BitVec 64, decodeWord v = .ok i → v &&& 0x0000000000FFFF0F#64 = encode i

/-- 30_encoding.md R83: a word acts as the same word with RSV0 and RSV1 cleared, in the decoder and at the core. -/
def Obligations.ReservedBitsAreIgnored : Prop :=
  ∀ v : BitVec 64, decodeWord v = decodeWord (v &&& 0x0000000000FFFF0F#64) ∧
    ∀ s : State, acceptWord v s = acceptWord (v &&& 0x0000000000FFFF0F#64) s

/-- 30_encoding.md R85: OPC 0x0 and 0x6 to 0xF are rejected with IllegalCommand (code 3), changing nothing but STATUS,
and the five others are the five commands. -/
def Obligations.IllegalOpcodesAreRejected : Prop :=
  ∀ v : BitVec 64,
    ((opcField v = 0 ∨ 6 ≤ (opcField v).toNat) → ∀ (w : Width) (s : Inst w),
      acceptWord v ⟨w, s⟩ =
        .next ⟨w, { s with status := { busy := false, done := true, err := true, errCode := 3 } }⟩) ∧
    (opcField v = 1 → decodeWord v = .ok (.expandKey (roundsField v).toNat)) ∧
    (opcField v = 2 → decodeWord v = .ok (.encrypt (roundsField v).toNat)) ∧
    (opcField v = 3 → decodeWord v = .ok (.decrypt (roundsField v).toNat)) ∧
    (opcField v = 4 → decodeWord v = .ok (.rotl (roundsField v).toNat)) ∧
    (opcField v = 5 → decodeWord v = .ok (.rotr (roundsField v).toNat))

/-- Command words written out from the format of 30_encoding.md R81, R84 (R97's examples; 95_test_vectors.md V-E6,
V-E14, V-E15). -/
def Obligations.WrittenOutWordsDecode : Prop :=
  decodeWord 0x0C01#64 = .ok (.expandKey 12) ∧ decodeWord 0x0C02#64 = .ok (.encrypt 12) ∧
  decodeWord 0x0C03#64 = .ok (.decrypt 12) ∧ decodeWord 0x4#64 = .ok (.rotl 0) ∧
  decodeWord 0x5#64 = .ok (.rotr 0) ∧ decodeWord 0x10001#64 = .ok (.expandKey 256) ∧
  decodeWord 0xFFFFFFFFFF0000F2#64 = .ok (.encrypt 0) ∧ decodeWord 0xFFFF04#64 = .ok (.rotl 65535)

/-- The lines of host programs (30_encoding.md R96) and the pseudo-instructions (R97): WR and RD are one access to the
address of their target; those that start a command are one write to CMD at 0x0008 of `(r << 8) | opc`, the encoding of
that command; LOADKEY and LOADTABLE are writes to K[0], K[1], ... and S[0], S[1], ..., then one of the length; WAIT is
the loop that WaitPollsStatus speaks of. That a pseudo-instruction may carry the mark `-> BUSERR`, at each of its
accesses, is the model's choice (notes/assumptions/20.md), and so is the width of the operands of LOADKEY and LOADTABLE
(notes/assumptions/22.md). -/
def Obligations.PseudoInstructionsStartTheirCommands : Prop :=
  ∀ (r : BitVec 16) (mark : Bool),
    ((Line.expandKey r mark).expand = [.wr 0x0008 (r.setWidth 64 <<< 8 ||| 0x1) mark] ∧
      r.setWidth 64 <<< 8 ||| 0x1 = encode (.expandKey r.toNat) ∧
      decodeWord (r.setWidth 64 <<< 8 ||| 0x1) = .ok (.expandKey r.toNat)) ∧
    ((Line.encrypt r mark).expand = [.wr 0x0008 (r.setWidth 64 <<< 8 ||| 0x2) mark] ∧
      r.setWidth 64 <<< 8 ||| 0x2 = encode (.encrypt r.toNat) ∧
      decodeWord (r.setWidth 64 <<< 8 ||| 0x2) = .ok (.encrypt r.toNat)) ∧
    ((Line.decrypt r mark).expand = [.wr 0x0008 (r.setWidth 64 <<< 8 ||| 0x3) mark] ∧
      r.setWidth 64 <<< 8 ||| 0x3 = encode (.decrypt r.toNat) ∧
      decodeWord (r.setWidth 64 <<< 8 ||| 0x3) = .ok (.decrypt r.toNat)) ∧
    ((Line.rotl mark).expand = [.wr 0x0008 0x4 mark] ∧ 0x4#64 = encode (.rotl 0) ∧
      decodeWord 0x4 = .ok (.rotl 0)) ∧
    ((Line.rotr mark).expand = [.wr 0x0008 0x5 mark] ∧ 0x5#64 = encode (.rotr 0) ∧
      decodeWord 0x5 = .ok (.rotr 0)) ∧
    Line.wait.expand = [.wait] ∧
    (∀ ks : List (BitVec 64), (Line.loadKey ks mark).expand =
      (ks.zipIdx.map fun x => .wr (BitVec.ofNat 13 (0x0800 + 8 * x.2)) x.1 mark) ++
        [.wr 0x0018 (BitVec.ofNat 64 ks.length) mark]) ∧
    (∀ ws : List (BitVec 64), (Line.loadTable ws mark).expand =
      (ws.zipIdx.map fun x => .wr (BitVec.ofNat 13 (0x1000 + 8 * x.2)) x.1 mark) ++
        [.wr 0x0020 (BitVec.ofNat 64 ws.length) mark]) ∧
    (∀ (target : Slot) (v : BitVec 64),
      (Line.wr target v mark).expand = [.wr target.addr v mark] ∧
      (Line.rd target mark).expand = [.rd target.addr mark]) ∧
    (∀ (addr : BitVec 13) (v : BitVec 64),
      (Line.wrAt addr v mark).expand = [.wr addr v mark] ∧ (Line.rdAt addr mark).expand = [.rd addr mark])

/-! ### Steps -/

/-- When the host moves, step is the next access of the host program, with that access taken off the program and the
move off the schedule. A write of any word to CMD while BUSY = 0 is the acceptance of the word, and runs the decoded
command, with the OK response recorded (20_memory.md R57, 30_encoding.md R90). A write to any address, busy or not, is
`hostWrite` (R57), a read is `hostRead` (R56), and WAIT is one poll of STATUS (30_encoding.md R97). A host with no
access left changes nothing but the schedule (notes/assumptions/7.md). With an empty schedule the host moves while
nothing is pending (notes/assumptions/5.md). -/
def Obligations.StepRunsTheWrittenCommand : Prop :=
  ∀ (w : Width) (s : Inst w) (later : List Agent),
    (s.sched = .host :: later ∨ (s.sched = [] ∧ later = [] ∧ s.pending = none)) →
    (∀ (v : BitVec 64) (mark : Bool) (rest : List HostOp),
      s.status.busy = false → s.prog = .wr 0x0008 v mark :: rest →
        step ⟨w, s⟩ = acceptWord v ⟨w, { s with sched := later, prog := rest, response := some .writeOk }⟩ ∧
        ∀ i : Instr, decodeWord v = .ok i →
          step ⟨w, s⟩ = exec i ⟨w, { s with sched := later, prog := rest, response := some .writeOk }⟩) ∧
    (∀ (addr : BitVec 13) (v : BitVec 64) (mark : Bool) (rest : List HostOp),
      s.prog = .wr addr v mark :: rest →
        step ⟨w, s⟩ = hostWrite addr v mark ⟨w, { s with sched := later, prog := rest }⟩) ∧
    (∀ (addr : BitVec 13) (mark : Bool) (rest : List HostOp),
      s.prog = .rd addr mark :: rest →
        step ⟨w, s⟩ = hostRead addr mark ⟨w, { s with sched := later, prog := rest }⟩) ∧
    (∀ rest : List HostOp, s.prog = .wait :: rest →
      step ⟨w, s⟩ = .next ⟨w, { s with
        sched := later
        prog := if s.status.busy then s.prog else rest
        response := some (.readOk s.status.word) }⟩) ∧
    (s.prog = [] → step ⟨w, s⟩ = .next ⟨w, { s with sched := later }⟩)

/-- The core's step is the pending command's completion, and with nothing pending the core changes nothing
(30_encoding.md R92). With an empty schedule the core moves while a command is pending (notes/assumptions/5.md). -/
def Obligations.StepCompletesThePendingCommand : Prop :=
  ∀ (w : Width) (s : Inst w),
    (∀ i later, s.pending = some i → s.sched = .core :: later →
      step ⟨w, s⟩ = exec i ⟨w, { s with sched := later }⟩) ∧
    (∀ i, s.pending = some i → s.sched = [] → step ⟨w, s⟩ = exec i ⟨w, s⟩) ∧
    (∀ later, s.pending = none → s.sched = .core :: later → step ⟨w, s⟩ = .next ⟨w, { s with sched := later }⟩)

/-- The word placed by `withFetchWord` is what the very next step runs (notes/assumptions/10.md). -/
def Obligations.PlacedWordRunsNext : Prop :=
  ∀ (w : Width) (s : Inst w) (nbits word : Nat) (i : Instr),
    s.status.busy = false → decodeTableWord nbits word = some i →
      step (State.withFetchWord ⟨w, s⟩ nbits word) = exec i ⟨w, { s with response := some .writeOk }⟩

/-! ### Reset -/

/-- 70_reset_and_hazards.md R230, R25: what a reset step leaves, on an instance of any width, and that it is what
`Inst.reset` holds. No byte of K or S is specified, and the draws of the unspecified contents of K, S and L are new: that
these contents are held as draws is the model's choice (notes/assumptions/2.md for K and S, notes/assumptions/3.md for
L). The count of unspecified results stays (notes/assumptions/21.md), and so does the environment's part
(notes/assumptions/12.md). -/
def Obligations.ResetLeavesTheStatedValues : Prop :=
  ∀ (w : Width) (s : Inst w) (later : List Agent), s.sched = .environment :: later →
    ∃ t : Inst w, step ⟨w, s⟩ = .next ⟨w, t⟩ ∧ t.a = 0 ∧ t.b = 0 ∧
      t.status = { busy := false, done := false, err := false, errCode := 0 } ∧ t.keyLen = 0 ∧ t.sLen = 0 ∧
      t.pending = none ∧ t.mem = [] ∧ memRead 0x0000 t = .ok (BitVec.ofNat 64 (w.bits ||| 0xFF00)) ∧
      t.ramDraw ≠ s.ramDraw ∧ t.lDraw ≠ s.lDraw ∧
      t = { Inst.reset w with
              lDraw := t.lDraw, ramDraw := t.ramDraw, resultDraw := s.resultDraw
              prog := s.prog, sched := later, response := s.response }

/-- 70_reset_and_hazards.md R231: reset cancels the pending command, and none of its results are written. The
completion never fires: the core's next move changes only the schedule, which is the model's reading of a move with
nothing pending (notes/assumptions/7.md). -/
def Obligations.ResetCancelsThePendingCommand : Prop :=
  ∀ (w : Width) (s : Inst w) (later : List Agent),
    s.status.busy = true → s.sched = .environment :: .core :: later →
      ∃ t u : Inst w, step ⟨w, s⟩ = .next ⟨w, t⟩ ∧ step ⟨w, t⟩ = .next ⟨w, u⟩ ∧
        t.pending = none ∧ t.status.busy = false ∧ t.sLen = 0 ∧ t.a = 0 ∧ t.b = 0 ∧ t.mem = [] ∧
        u = { t with sched := later }

/-- 70_reset_and_hazards.md R232: after reset the core is idle, no table is valid, EXPAND_KEY with the empty key is
accepted and its table does not depend on K, and the rotations work on A = B = 0. -/
def Obligations.AfterResetTheCoreIsIdle : Prop :=
  ∀ (w : Width) (s : Inst w),
    (resetStep s).status.busy = false ∧ (resetStep s).status.done = false ∧ (resetStep s).sLen = 0 ∧
    (∀ r, exec (.encrypt r) ⟨w, resetStep s⟩ =
      .next ⟨w, { resetStep s with status := { busy := false, done := true, err := true, errCode := 2 } }⟩) ∧
    (∀ r, exec (.decrypt r) ⟨w, resetStep s⟩ =
      .next ⟨w, { resetStep s with status := { busy := false, done := true, err := true, errCode := 2 } }⟩) ∧
    (∀ r, r ≤ 255 → ∃ t u : Inst w,
      exec (.expandKey r) ⟨w, resetStep s⟩ = .next ⟨w, t⟩ ∧ exec (.expandKey r) ⟨w, t⟩ = .next ⟨w, u⟩ ∧
      ∀ (key : Nat → Byte) (i : Nat), i < 2 * (r + 1) →
        u.readTable i = (expandedTable w key 0 r).getD i 0) ∧
    (∀ r, ∃ t u : Inst w, exec (.rotl r) ⟨w, resetStep s⟩ = .next ⟨w, t⟩ ∧
      exec (.rotl r) ⟨w, t⟩ = .next ⟨w, u⟩ ∧ u.a = 0 ∧ u.b = 0) ∧
    (∀ r, ∃ t u : Inst w, exec (.rotr r) ⟨w, resetStep s⟩ = .next ⟨w, t⟩ ∧
      exec (.rotr r) ⟨w, t⟩ = .next ⟨w, u⟩ ∧ u.a = 0 ∧ u.b = 0)

/-! ### Invariants -/

/-- The invariant holds right after reset, for every width. -/
def Obligations.ResetMeetsTheInvariant : Prop :=
  State.reset.inst.Inv ∧ ∀ w : Width, (Inst.reset w).Inv

/-- Every step, of any agent, keeps the width and the invariant: STATUS stays a legal combination (10_state.md R27),
BUSY = 1 exactly when a command is pending (R28), SLEN ≤ 512 (R32), the memory keeps its canonical form, and the
pending command still passes its check (20_memory.md R62). -/
def Obligations.EveryStepKeepsTheInvariant : Prop :=
  ∀ s t : State, s.inst.Inv → step s = .next t → t.width = s.width ∧ t.inst.Inv

/-- From a state that meets the invariant a step stops only when the host makes an access that its program does not
mark as expecting BUSERR, and that access gets BUSERR (60_exceptions.md R207): no step of the core or of reset
stops, and nothing is refused. That such an access stops the machine is notes/assumptions/6.md. -/
def Obligations.OnlyUnmarkedBusErrorsStop : Prop :=
  ∀ s : State, s.inst.Inv →
    (∃ t, step s = .next t) ∨
    (s.mover = .host ∧ ∃ e, step s = .fault e ∧
      ((∃ addr rest, s.inst.prog = .rd addr false :: rest ∧ memRead addr s.inst = .error e) ∨
       (∃ addr v rest, s.inst.prog = .wr addr v false :: rest ∧
         (slotAt addr = .error e ∨ (s.inst.status.busy = true ∧ e = .busyLock)))))

/-- Only a completion or a reset clears BUSY (30_encoding.md R93: "completion or reset is the only way back to
BUSY = 0"). -/
def Obligations.OnlyCompletionOrResetClearsBusy : Prop :=
  ∀ s t : State, s.inst.status.busy = true → step s = .next t → t.inst.status.busy = false →
    s.mover = .core ∨ s.mover = .environment

/-- While BUSY = 1 no step of the host changes anything of the core (20_memory.md R58): neither the operands of the
pending command nor PENDING nor STATUS. -/
def Obligations.BusyLockKeepsTheCore : Prop :=
  ∀ (w : Width) (s : Inst w) (t : State), s.status.busy = true → State.mover ⟨w, s⟩ = .host →
    step ⟨w, s⟩ = .next t → ∃ u : Inst w, t = ⟨w, u⟩ ∧ u = s.withHostOf u

/-- Each component of the state has the writers that 10_state.md §1 lists for it: outside reset, a step changes STATUS
or PENDING only as a write to CMD or a completion, A only as a write to A or the completion of ENCRYPT, DECRYPT,
ROTL or ROTR, B only as a write to B or the completion of ENCRYPT or DECRYPT, KEY_LEN and K[k] only as a write to
them, S_LEN only as a write to it or the completion of EXPAND_KEY, S[i] only as a write to it or the completion
of an EXPAND_KEY whose table has it, and L only as the completion of EXPAND_KEY. That L stands in the state as a draw
of its unspecified contents is the model's choice (notes/assumptions/3.md). -/
def Obligations.EachComponentHasItsWriters : Prop :=
  ∀ (w : Width) (s : Inst w) (t : State), s.Inv → step ⟨w, s⟩ = .next t → State.mover ⟨w, s⟩ ≠ .environment →
    ∃ u : Inst w, t = ⟨w, u⟩ ∧
      (u.status ≠ s.status ∨ u.pending ≠ s.pending →
        State.hostWrites ⟨w, s⟩ 0x0008 ∨ ∃ i, State.completes ⟨w, s⟩ i) ∧
      (u.a ≠ s.a → State.hostWrites ⟨w, s⟩ 0x0028 ∨ ∃ r, State.completes ⟨w, s⟩ (.encrypt r) ∨
        State.completes ⟨w, s⟩ (.decrypt r) ∨ State.completes ⟨w, s⟩ (.rotl r) ∨ State.completes ⟨w, s⟩ (.rotr r)) ∧
      (u.b ≠ s.b → State.hostWrites ⟨w, s⟩ 0x0030 ∨ ∃ r, State.completes ⟨w, s⟩ (.encrypt r) ∨
        State.completes ⟨w, s⟩ (.decrypt r)) ∧
      (u.keyLen ≠ s.keyLen → State.hostWrites ⟨w, s⟩ 0x0018) ∧
      (u.sLen ≠ s.sLen → State.hostWrites ⟨w, s⟩ 0x0020 ∨ ∃ r, State.completes ⟨w, s⟩ (.expandKey r)) ∧
      (∀ k, k < 255 → u.readKey k ≠ s.readKey k →
        State.hostWrites ⟨w, s⟩ (BitVec.ofNat 13 (0x0800 + 8 * k))) ∧
      (∀ i, i < 512 → u.readTable i ≠ s.readTable i →
        State.hostWrites ⟨w, s⟩ (BitVec.ofNat 13 (0x1000 + 8 * i)) ∨
          ∃ r, i < 2 * (r + 1) ∧ State.completes ⟨w, s⟩ (.expandKey r)) ∧
      (u.lDraw ≠ s.lDraw → ∃ r, State.completes ⟨w, s⟩ (.expandKey r))

/-- A STATUS read is the synchronisation point (20_memory.md R65, 70_reset_and_hazards.md R240): it always gets OK, its
bit 0 is 0 exactly when no command is pending, and then every mapped address can be read. -/
def Obligations.StatusReadSynchronises : Prop :=
  ∀ (w : Width) (s : Inst w), s.Inv →
    ∃ data, memRead 0x0010 s = .ok data ∧ (data.getLsbD 0 = false ↔ s.pending = none) ∧
      (data.getLsbD 0 = false → ∀ slot : Slot, ∃ d, memRead slot.addr s = .ok d)

/-- The result of a command does not depend on how many host steps come between its acceptance and its completion:
after any number of them the core completes it as it would have at once (20_memory.md R67, 30_encoding.md R92). -/
def Obligations.ResultIsIndependentOfInterleaving : Prop :=
  ∀ (w : Width) (n : Nat) (s : Inst w) (t : State) (i : Instr) (later : List Agent),
    s.pending = some i → s.status.busy = true → s.sched = List.replicate n .host ++ .core :: later →
    steps (n + 1) ⟨w, s⟩ = .next t →
      ∃ u v : Inst w, exec i ⟨w, s⟩ = .next ⟨w, u⟩ ∧ t = ⟨w, v⟩ ∧ v = u.withHostOf v ∧ v.sched = later

/-! ### Acceptance, errors, completion -/

/-- 42_key_schedule.md R146: acceptance of EXPAND_KEY. ROUNDS above 255 raises InvalidRounds, with only STATUS changed;
no other condition raises an error. -/
def Obligations.ExpandKeyAcceptance : Prop :=
  ∀ (w : Width) (s : Inst w) (r : Nat), s.pending = none →
    (255 < r → exec (.expandKey r) ⟨w, s⟩ =
      .next ⟨w, { s with status := { busy := false, done := true, err := true, errCode := 1 } }⟩) ∧
    (r ≤ 255 → exec (.expandKey r) ⟨w, s⟩ =
      .next ⟨w, { s with
        pending := some (.expandKey r)
        status := { busy := true, done := false, err := false, errCode := 0 } }⟩)

/-- 43_block_transforms.md R175: acceptance of ENCRYPT and DECRYPT. TableTooShort exactly when 2(ROUNDS+1) > SLEN, on
integers, with only STATUS changed; so always with ROUNDS above 255, never for a shorter round count than the
table's, and always when SLEN = 0 as after reset. -/
def Obligations.BlockAcceptance : Prop :=
  ∀ (w : Width) (s : Inst w) (r : Nat), s.pending = none →
    (s.sLen.toNat < 2 * (r + 1) →
      exec (.encrypt r) ⟨w, s⟩ =
        .next ⟨w, { s with status := { busy := false, done := true, err := true, errCode := 2 } }⟩ ∧
      exec (.decrypt r) ⟨w, s⟩ =
        .next ⟨w, { s with status := { busy := false, done := true, err := true, errCode := 2 } }⟩) ∧
    (2 * (r + 1) ≤ s.sLen.toNat →
      exec (.encrypt r) ⟨w, s⟩ =
        .next ⟨w, { s with
          pending := some (.encrypt r)
          status := { busy := true, done := false, err := false, errCode := 0 } }⟩ ∧
      exec (.decrypt r) ⟨w, s⟩ =
        .next ⟨w, { s with
          pending := some (.decrypt r)
          status := { busy := true, done := false, err := false, errCode := 0 } }⟩) ∧
    (s.sLen.toNat ≤ 512 → 255 < r → s.sLen.toNat < 2 * (r + 1)) ∧
    (∀ r', s.sLen.toNat = 2 * (r' + 1) → r ≤ r' → 2 * (r + 1) ≤ s.sLen.toNat) ∧
    (resetStep s).sLen.toNat < 2 * (r + 1)

/-- A command word written while nothing is pending either leaves everything but STATUS as it was, with one of the
error codes 1, 2, 3 reported, or is accepted: PENDING holds the decoded command and STATUS says busy
(60_exceptions.md R200, R205; 30_encoding.md R90). -/
def Obligations.CommandWordIsReportedOrAccepted : Prop :=
  ∀ (w : Width) (v : BitVec 64) (s : Inst w), s.pending = none →
    (∃ code : BitVec 4, 1 ≤ code.toNat ∧ code.toNat ≤ 3 ∧
      acceptWord v ⟨w, s⟩ =
        .next ⟨w, { s with status := { busy := false, done := true, err := true, errCode := code } }⟩) ∨
    (∃ i, decodeWord v = .ok i ∧ commandCheck i s = none ∧
      acceptWord v ⟨w, s⟩ =
        .next ⟨w, { s with
          pending := some i
          status := { busy := true, done := false, err := false, errCode := 0 } }⟩)

/-- 30_encoding.md R91: no error arises at completion. Every pending command completes, with DONE set, ERR and ERRCODE
0 and nothing pending. -/
def Obligations.NoErrorArisesAtCompletion : Prop :=
  ∀ (w : Width) (s : Inst w) (i : Instr), s.Inv → s.pending = some i →
    ∃ t : Inst w, exec i ⟨w, s⟩ = .next ⟨w, t⟩ ∧ t.pending = none ∧
      t.status = { busy := false, done := true, err := false, errCode := 0 }

/-- A command that reaches the core while another is pending stops with the busy lock and has no effect. No step does
this (30_encoding.md R93); that the meaning stops so is notes/assumptions/8.md. -/
def Obligations.SecondCommandIsTurnedAway : Prop :=
  ∀ (w : Width) (s : Inst w) (i j : Instr), s.pending = some j → j ≠ i → exec i ⟨w, s⟩ = .fault .busyLock

/-! ### The commands' own effects -/

/-- ROTL (41_rotation.md R126): completes with A rotated left by B mod W, B and everything else unchanged but PENDING
and STATUS. Acceptance never raises an error, whatever ROUNDS is. -/
def Obligations.RotlCompletes : Prop :=
  ∀ (w : Width) (s : Inst w) (r : Nat),
    (s.pending = none → exec (.rotl r) ⟨w, s⟩ =
      .next ⟨w, { s with
        pending := some (.rotl r)
        status := { busy := true, done := false, err := false, errCode := 0 } }⟩) ∧
    (s.pending = some (.rotl r) → exec (.rotl r) ⟨w, s⟩ =
      .next ⟨w, { s with
        a := if s.b.toNat % w.bits = 0 then s.a
             else s.a <<< (s.b.toNat % w.bits) ||| s.a >>> (w.bits - s.b.toNat % w.bits)
        pending := none
        status := { s.status with busy := false, done := true } }⟩)

/-- ROTR (41_rotation.md R127): as ROTL, rotating right. -/
def Obligations.RotrCompletes : Prop :=
  ∀ (w : Width) (s : Inst w) (r : Nat),
    (s.pending = none → exec (.rotr r) ⟨w, s⟩ =
      .next ⟨w, { s with
        pending := some (.rotr r)
        status := { busy := true, done := false, err := false, errCode := 0 } }⟩) ∧
    (s.pending = some (.rotr r) → exec (.rotr r) ⟨w, s⟩ =
      .next ⟨w, { s with
        a := if s.b.toNat % w.bits = 0 then s.a
             else s.a >>> (s.b.toNat % w.bits) ||| s.a <<< (w.bits - s.b.toNat % w.bits)
        pending := none
        status := { s.status with busy := false, done := true } }⟩)

/-- ENCRYPT (43_block_transforms.md R176): completes with (A, B) encrypted by the current table, everything else
unchanged but PENDING and STATUS. With an unspecified byte in S[0..2r+1] it completes too, and both A and B are free
values (70_reset_and_hazards.md R235; which draws they are is notes/assumptions/21.md). -/
def Obligations.EncryptCompletes : Prop :=
  ∀ (w : Width) (s : Inst w) (r : Nat), s.pending = some (.encrypt r) →
    ((∀ i, i < 2 * (r + 1) → ∀ m, m < w.bytes → s.mem.read (0x1000 + 8 * i + m) ≠ none) →
      exec (.encrypt r) ⟨w, s⟩ =
        .next ⟨w, { s with
          a := (enc s.readTable r (s.a, s.b)).1
          b := (enc s.readTable r (s.a, s.b)).2
          pending := none
          status := { s.status with busy := false, done := true } }⟩) ∧
    ((∃ i, i < 2 * (r + 1) ∧ ∃ m, m < w.bytes ∧ s.mem.read (0x1000 + 8 * i + m) = none) →
      exec (.encrypt r) ⟨w, s⟩ =
        .next ⟨w, { s with
          a := (Config.resultWord s.resultDraw 0).setWidth w.bits
          b := (Config.resultWord s.resultDraw 1).setWidth w.bits
          resultDraw := s.resultDraw + 1
          pending := none
          status := { s.status with busy := false, done := true } }⟩)

/-- DECRYPT (43_block_transforms.md R177): completes with (A, B) decrypted by the current table, everything else
unchanged but PENDING and STATUS. With an unspecified byte in S[0..2r+1] it completes too, and both A and B are free
values (70_reset_and_hazards.md R235; which draws they are is notes/assumptions/21.md). -/
def Obligations.DecryptCompletes : Prop :=
  ∀ (w : Width) (s : Inst w) (r : Nat), s.pending = some (.decrypt r) →
    ((∀ i, i < 2 * (r + 1) → ∀ m, m < w.bytes → s.mem.read (0x1000 + 8 * i + m) ≠ none) →
      exec (.decrypt r) ⟨w, s⟩ =
        .next ⟨w, { s with
          a := (dec s.readTable r (s.a, s.b)).1
          b := (dec s.readTable r (s.a, s.b)).2
          pending := none
          status := { s.status with busy := false, done := true } }⟩) ∧
    ((∃ i, i < 2 * (r + 1) ∧ ∃ m, m < w.bytes ∧ s.mem.read (0x1000 + 8 * i + m) = none) →
      exec (.decrypt r) ⟨w, s⟩ =
        .next ⟨w, { s with
          a := (Config.resultWord s.resultDraw 0).setWidth w.bits
          b := (Config.resultWord s.resultDraw 1).setWidth w.bits
          resultDraw := s.resultDraw + 1
          pending := none
          status := { s.status with busy := false, done := true } }⟩)

/-- EXPAND_KEY (42_key_schedule.md R149): completes with S[0..t-1] the expanded key, S_LEN = t, S[t..511] and K as they
were, and A, B, KEY_LEN unchanged; every byte that is not of S[0..t-1] reads as before. With an unspecified byte in
K[0..b-1] it completes too, and every byte of S[0..t-1] and S_LEN are free values, S_LEN a legal one
(70_reset_and_hazards.md R235, 10_state.md R32; which draws they are is notes/assumptions/21.md). Either way L becomes
unspecified (10_state.md R35): its draw is new, and that L is held as a draw is notes/assumptions/3.md. -/
def Obligations.ExpandKeyCompletes : Prop :=
  ∀ (w : Width) (s : Inst w) (r : Nat), r ≤ 255 → s.pending = some (.expandKey r) →
    ∃ t : Inst w, exec (.expandKey r) ⟨w, s⟩ = .next ⟨w, t⟩ ∧
      ((∀ k, k < s.keyLen.toNat → s.mem.read (0x800 + 8 * k) ≠ none) →
        (∀ i, i < 2 * (r + 1) → t.readTable i = (expandedTable w s.readKey s.keyLen.toNat r).getD i 0) ∧
        (∀ i, i < 2 * (r + 1) → ∀ m, m < w.bytes → t.mem.read (0x1000 + 8 * i + m) ≠ none) ∧
        t.sLen.toNat = 2 * (r + 1) ∧ t.tableDraws = s.tableDraws ∧ t.resultDraw = s.resultDraw) ∧
      ((∃ k, k < s.keyLen.toNat ∧ s.mem.read (0x800 + 8 * k) = none) →
        (∀ i, i < 2 * (r + 1) → ∀ m, m < w.bytes →
          t.mem.read (0x1000 + 8 * i + m) = none ∧
          t.readByte (0x1000 + 8 * i + m) =
            Config.ramByte s.ramDraw (s.redraws (0x1000 + 8 * i + m) + 1) (0x1000 + 8 * i + m)) ∧
        t.sLen.toNat = (Config.resultLength s.resultDraw).val ∧ t.tableDraws = 2 * (r + 1) :: s.tableDraws ∧
        t.resultDraw = s.resultDraw + 1) ∧
      t.sLen.toNat ≤ 512 ∧ t.lDraw ≠ s.lDraw ∧
      (∀ i, 2 * (r + 1) ≤ i → t.readTable i = s.readTable i) ∧
      (∀ k, k < 255 → t.readKey k = s.readKey k) ∧
      (∀ addr, (∀ i, i < 2 * (r + 1) → ∀ m, m < w.bytes → addr ≠ 0x1000 + 8 * i + m) →
        t.readByte addr = s.readByte addr ∧ t.mem.read addr = s.mem.read addr) ∧
      t = { s with
              mem := t.mem, sLen := t.sLen, lDraw := t.lDraw, tableDraws := t.tableDraws, resultDraw := t.resultDraw
              pending := none, status := { s.status with busy := false, done := true } }

/-- The commands that store nothing: an accepted, completed or rejected ENCRYPT, DECRYPT, ROTL or ROTR leaves every
byte of K and S, KEY_LEN, S_LEN and L as they were, and the rotations leave B (43_block_transforms.md R176, R177,
41_rotation.md R126, R127). Only the model's own count of unspecified results may grow (notes/assumptions/21.md), and
not by a rotation. -/
def Obligations.NonStoringCommandsFrame : Prop :=
  ∀ (w : Width) (s : Inst w) (t : State) (r : Nat) (i : Instr),
    (i = .encrypt r ∨ i = .decrypt r ∨ i = .rotl r ∨ i = .rotr r) → exec i ⟨w, s⟩ = .next t →
      ∃ u : Inst w, t = ⟨w, u⟩ ∧
        (∀ addr, u.readByte addr = s.readByte addr) ∧ (∀ k, u.readKey k = s.readKey k) ∧
        (∀ j, u.readTable j = s.readTable j) ∧
        (∀ addr, u.mem.read addr = s.mem.read addr) ∧
        u = { s with a := u.a, b := u.b, status := u.status, pending := u.pending, resultDraw := u.resultDraw } ∧
        ((i = .rotl r ∨ i = .rotr r) → u.b = s.b ∧ u.resultDraw = s.resultDraw)

/-- No command writes K or KEY_LEN (10_state.md R31, R33), and EXPAND_KEY does not touch A and B (R22, R23): for every
command and either of its steps. -/
def Obligations.NoCommandWritesTheKey : Prop :=
  ∀ (w : Width) (i : Instr) (s : Inst w) (t : State), exec i ⟨w, s⟩ = .next t →
    ∃ u : Inst w, t = ⟨w, u⟩ ∧ (∀ k, k < 255 → u.readKey k = s.readKey k) ∧ u.keyLen = s.keyLen ∧
      (∀ r, i = .expandKey r → u.a = s.a ∧ u.b = s.b)

/-- A command run from an idle core, acceptance then completion: it ends with the effect of its rule on the operands
it was started with, idle, DONE set and no error (30_encoding.md R90, R92). With an unspecified byte among the operands
it ends so too, and what it writes is as EncryptCompletes, DecryptCompletes and ExpandKeyCompletes say. -/
def Obligations.AcceptedCommandRunsToDone : Prop :=
  ∀ (w : Width) (i : Instr) (s : Inst w), s.pending = none → commandCheck i s = none →
    ∃ t u : Inst w, exec i ⟨w, s⟩ = .next ⟨w, t⟩ ∧ t.pending = some i ∧ t.status.busy = true ∧
      exec i ⟨w, t⟩ = .next ⟨w, u⟩ ∧
      u.pending = none ∧ u.status = { busy := false, done := true, err := false, errCode := 0 } ∧
      (∀ r, i = .encrypt r → s.tableSpecified r = true → (u.a, u.b) = enc s.readTable r (s.a, s.b)) ∧
      (∀ r, i = .decrypt r → s.tableSpecified r = true → (u.a, u.b) = dec s.readTable r (s.a, s.b)) ∧
      (∀ r, i = .rotl r → u.a = rotlW s.a s.b.toNat ∧ u.b = s.b) ∧
      (∀ r, i = .rotr r → u.a = rotrW s.a s.b.toNat ∧ u.b = s.b) ∧
      (∀ r, i = .expandKey r → s.keySpecified = true → u.sLen.toNat = 2 * (r + 1) ∧ ∀ j, j < 2 * (r + 1) →
        u.readTable j = (expandedTable w s.readKey s.keyLen.toNat r).getD j 0)

/-- ENCRYPT r and then DECRYPT r with no write between them restores A and B (43_block_transforms.md R177), for every
specified table the host or EXPAND_KEY left and every r it is long enough for; and the other way round. With an
unspecified byte in S[0..2r+1] the result of either command is unspecified (70_reset_and_hazards.md R235): then
EncryptCompletes and DecryptCompletes say what is written. -/
def Obligations.DecryptAfterEncryptRestoresTheBlock : Prop :=
  ∀ (w : Width) (s : Inst w) (r : Nat) (i j : Instr), s.pending = none → 2 * (r + 1) ≤ s.sLen.toNat →
    s.tableSpecified r = true → (i = .encrypt r ∧ j = .decrypt r ∨ i = .decrypt r ∧ j = .encrypt r) →
      ∃ t u v x : Inst w, exec i ⟨w, s⟩ = .next ⟨w, t⟩ ∧ exec i ⟨w, t⟩ = .next ⟨w, u⟩ ∧
        exec j ⟨w, u⟩ = .next ⟨w, v⟩ ∧ exec j ⟨w, v⟩ = .next ⟨w, x⟩ ∧ x.a = s.a ∧ x.b = s.b

/-! ### Datapath and rotation -/

/-- The datapath operations as integers (40_word_datapath.md R101, R102, R106, R107, R108) and bit by bit (R103, R104,
R105). -/
def Obligations.DatapathArithmetic : Prop :=
  ∀ (w : Width) (x y : Word w),
    (addW x y).toNat = (x.toNat + y.toNat) % 2 ^ w.bits ∧
    (subW x y).toNat = (x.toNat + 2 ^ w.bits - y.toNat) % 2 ^ w.bits ∧
    subW (addW x y) y = x ∧
    (∀ s : Fin w.bits, (shlW x s).toNat = (x.toNat * 2 ^ s.val) % 2 ^ w.bits ∧
      (shrW x s).toNat = x.toNat / 2 ^ s.val) ∧
    (∀ k : Byte, (zext8W w k).toNat = k.toNat) ∧
    (∀ n, (xorW x y).getLsbD n = (x.getLsbD n ^^ y.getLsbD n) ∧
      (andW x y).getLsbD n = (x.getLsbD n && y.getLsbD n) ∧
      (orW x y).getLsbD n = (x.getLsbD n || y.getLsbD n))

/-- The constants P_W and Q_W (40_word_datapath.md R110): the table's values, and that they are the odd integers within
1 of (e - 2) * 2^W and (φ - 1) * 2^W, equally the integer parts of these with bit 0 set. Values and formulas are the
spec's general knowledge (notes/assumptions/15.md). -/
def Obligations.MagicConstantsAreStated : Prop :=
  (magicP .w8).toNat = 0xB7 ∧ (magicQ .w8).toNat = 0x9F ∧
  (magicP .w16).toNat = 0xB7E1 ∧ (magicQ .w16).toNat = 0x9E37 ∧
  (magicP .w32).toNat = 0xB7E15163 ∧ (magicQ .w32).toNat = 0x9E3779B9 ∧
  (magicP .w64).toNat = 0xB7E151628AED2A6B ∧ (magicQ .w64).toNat = 0x9E3779B97F4A7C15 ∧
  ∀ w : Width,
    (magicP w).toNat % 2 = 1 ∧ |((magicP w).toNat : ℝ) - (Real.exp 1 - 2) * 2 ^ w.bits| < 1 ∧
    (magicQ w).toNat % 2 = 1 ∧ |((magicQ w).toNat : ℝ) - (Real.goldenRatio - 1) * 2 ^ w.bits| < 1 ∧
    (magicP w).toNat = Nat.floor ((Real.exp 1 - 2) * 2 ^ w.bits) ||| 1 ∧
    (magicQ w).toNat = Nat.floor ((Real.goldenRatio - 1) * 2 ^ w.bits) ||| 1

/-- Rotation bit by bit (41_rotation.md R120, R121): bit n of ROTL_W(x, y) is bit n - y of x and bit n of ROTR_W(x, y)
is bit n + y, modulo W; bits leaving one end enter at the other. -/
def Obligations.RotationMovesBits : Prop :=
  ∀ (w : Width) (x : Word w) (y n : Nat), n < w.bits →
    (rotlW x y).getLsbD n = x.getLsbD ((n + (w.bits - y % w.bits)) % w.bits) ∧
    (rotrW x y).getLsbD n = x.getLsbD ((n + y) % w.bits)

/-- 41_rotation.md R122. -/
def Obligations.RotationsAreInverse : Prop :=
  ∀ (w : Width) (x : Word w) (y : Nat), rotrW (rotlW x y) y = x ∧ rotlW (rotrW x y) y = x

/-- 41_rotation.md R123. -/
def Obligations.RotationByMultiplesIsIdentity : Prop :=
  ∀ (w : Width) (x : Word w) (k : Nat), rotlW x (k * w.bits) = x ∧ rotrW x (k * w.bits) = x

/-- 41_rotation.md R124: one direction from the other, and the number of 1 bits is kept. -/
def Obligations.RotationsAreRelated : Prop :=
  ∀ (w : Width) (x : Word w) (y : Nat),
    rotrW x y = rotlW x ((w.bits - y % w.bits) % w.bits) ∧
    ((Finset.range w.bits).filter (fun n => (rotlW x y).getLsbD n = true)).card =
      ((Finset.range w.bits).filter (fun n => x.getLsbD n = true)).card ∧
    ((Finset.range w.bits).filter (fun n => (rotrW x y).getLsbD n = true)).card =
      ((Finset.range w.bits).filter (fun n => x.getLsbD n = true)).card

/-- 10_state.md R24: the first u bytes of a block are A and the next u are B, each little-endian; and the bytes of the
pair are the block. -/
def Obligations.BlockBytesAreLittleEndian : Prop :=
  ∀ (w : Width) (xs : List Byte), xs.length = 2 * w.bytes →
    ∃ a b : Word w, blockOfBytes? w xs = some (a, b) ∧
      a.toNat = ∑ k ∈ Finset.range w.bytes, (xs.getD k 0).toNat * 2 ^ (8 * k) ∧
      b.toNat = ∑ k ∈ Finset.range w.bytes, (xs.getD (w.bytes + k) 0).toNat * 2 ^ (8 * k) ∧
      bytesOfBlock (a, b) = xs

/-! ### Key schedule -/

/-- 42_key_schedule.md R142: the buffer length c is max(1, ceil(8b/W)) = max(1, ceil(b/u)), between 1 and C_MAX, and
the example values. -/
def Obligations.BufferLengthIsStated : Prop :=
  (∀ (w : Width) (b : Nat), bufferLength w b = max 1 (Nat.ceil ((8 * b : ℚ) / w.bits)) ∧
    bufferLength w b = max 1 (Nat.ceil ((b : ℚ) / w.bytes)) ∧
    (b ≤ 255 → 1 ≤ bufferLength w b ∧ bufferLength w b ≤ Config.bufferMax w)) ∧
  [0, 1, 5, 16, 255].map (bufferLength .w8) = [1, 1, 5, 16, 255] ∧
  [0, 1, 5, 16, 255].map (bufferLength .w16) = [1, 1, 3, 8, 128] ∧
  [0, 1, 5, 16, 255].map (bufferLength .w32) = [1, 1, 2, 4, 64] ∧
  [0, 1, 5, 16, 255].map (bufferLength .w64) = [1, 1, 1, 2, 32]

/-- 42_key_schedule.md R147: the number of mixing iterations is between 6 and 1536, and the two ends. -/
def Obligations.MixingIterationsAreBounded : Prop :=
  ∀ (w : Width) (r b : Nat), r ≤ 255 → b ≤ 255 →
    mixCount (tableLength r) (bufferLength w b) = 3 * max (tableLength r) (bufferLength w b) ∧
    6 ≤ mixCount (tableLength r) (bufferLength w b) ∧ mixCount (tableLength r) (bufferLength w b) ≤ 1536 ∧
    (r = 0 → bufferLength w b ≤ 2 → mixCount (tableLength r) (bufferLength w b) = 6) ∧
    (r = 255 → mixCount (tableLength r) (bufferLength w b) = 1536)

/-- PACK's closed form (42_key_schedule.md R143): c words, word s the little-endian integer of the key bytes
K[us..us+u-1] that are below b. -/
def Obligations.PackIsLittleEndian : Prop :=
  ∀ (w : Width) (key : Nat → Byte) (b s : Nat), s < bufferLength w b →
    (pack w key b).length = bufferLength w b ∧
    ((pack w key b).getD s 0).toNat =
      ∑ m ∈ Finset.range w.bytes, (if w.bytes * s + m < b then (key (w.bytes * s + m)).toNat else 0) * 2 ^ (8 * m)

/-- 42_key_schedule.md R144: INIT gives t words, the first P_W and each Q_W above the one before; closed form
(P_W + i*Q_W) mod 2^W. -/
def Obligations.InitIsAnArithmeticProgression : Prop :=
  ∀ (w : Width) (t : Nat),
    (initTable w t).length = t ∧
    (0 < t → (initTable w t).getD 0 0 = magicP w) ∧
    (∀ i, 0 < i → i < t → (initTable w t).getD i 0 = (initTable w t).getD (i - 1) 0 + magicQ w) ∧
    (∀ i, i < t → ((initTable w t).getD i 0).toNat =
      ((magicP w).toNat + i * (magicQ w).toNat) % 2 ^ w.bits)

/-- MIX (42_key_schedule.md R145) as sequences: with `i = n mod t` and `j = n mod c` at iteration n, any sequences KA,
KB, S, L that start and step as the rule says give, after 3*max(t, c) iterations, the expanded table. -/
def Obligations.ExpandedTableFollowsTheMixingRule : Prop :=
  ∀ (w : Width) (key : Nat → Byte) (b r : Nat) (ka kb : Nat → Word w) (sw lw : Nat → Nat → Word w),
    ka 0 = 0 → kb 0 = 0 →
    (∀ i, i < 2 * (r + 1) → sw 0 i = (initTable w (2 * (r + 1))).getD i 0) →
    (∀ j, j < bufferLength w b → lw 0 j = (pack w key b).getD j 0) →
    (∀ n, ka (n + 1) = (sw n (n % (2 * (r + 1))) + ka n + kb n).rotateLeft 3) →
    (∀ n, kb (n + 1) =
      (lw n (n % bufferLength w b) + ka (n + 1) + kb n).rotateLeft (ka (n + 1) + kb n).toNat) →
    (∀ n, sw (n + 1) = Function.update (sw n) (n % (2 * (r + 1))) (ka (n + 1))) →
    (∀ n, lw (n + 1) = Function.update (lw n) (n % bufferLength w b) (kb (n + 1))) →
      (expandedTable w key b r).length = 2 * (r + 1) ∧
      ∀ i, i < 2 * (r + 1) →
        (expandedTable w key b r).getD i 0 = sw (3 * max (2 * (r + 1)) (bufferLength w b)) i

/-- 42_key_schedule.md R148: the table depends only on W, b, r and K[0..b-1]: not on K[b..254], nor on what S, L, A, B
or S_LEN held. A table of a key with an unspecified byte is unspecified (70_reset_and_hazards.md R235), and
ExpandKeyCompletes says what is written then. -/
def Obligations.TableDependsOnlyOnTheKey : Prop :=
  (∀ (w : Width) (key key' : Nat → Byte) (b r : Nat), (∀ k, k < b → key k = key' k) →
    expandedTable w key b r = expandedTable w key' b r) ∧
  ∀ (w : Width) (s s' : Inst w) (r i : Nat), r ≤ 255 → i < 2 * (r + 1) → s'.keyLen = s.keyLen →
    s.keySpecified = true → s'.keySpecified = true → (∀ k, k < s.keyLen.toNat → s'.readKey k = s.readKey k) →
      (expandKeyEffect r s').readTable i = (expandKeyEffect r s).readTable i

/-! ### Block transforms -/

/-- 43_block_transforms.md R170: any sequence of blocks that starts with the whitening and steps as round i of the rule
says (rotations as those of the bit-vector library) ends, after r rounds, in ENC(A, B, r); the reads are S[0..2r+1]. -/
def Obligations.EncFollowsTheRounds : Prop :=
  ∀ (w : Width) (table : Nat → Word w) (r : Nat) (a b : Word w) (x y : Nat → Word w),
    x 0 = a + table 0 → y 0 = b + table 1 →
    (∀ i, 1 ≤ i → i ≤ r → x i = (x (i - 1) ^^^ y (i - 1)).rotateLeft (y (i - 1)).toNat + table (2 * i)) →
    (∀ i, 1 ≤ i → i ≤ r → y i = (y (i - 1) ^^^ x i).rotateLeft (x i).toNat + table (2 * i + 1)) →
      enc table r (a, b) = (x r, y r)

/-- 43_block_transforms.md R171: any sequence of blocks that starts with (A, B) at round r and steps down as round i of
the rule says ends, after the un-whitening, in DEC(A, B, r). -/
def Obligations.DecFollowsTheRounds : Prop :=
  ∀ (w : Width) (table : Nat → Word w) (r : Nat) (a b : Word w) (x y : Nat → Word w),
    x r = a → y r = b →
    (∀ i, 1 ≤ i → i ≤ r → y (i - 1) = (y i - table (2 * i + 1)).rotateRight (x i).toNat ^^^ x i) →
    (∀ i, 1 ≤ i → i ≤ r → x (i - 1) = (x i - table (2 * i)).rotateRight (y (i - 1)).toNat ^^^ y (i - 1)) →
      dec table r (a, b) = (x 0 - table 0, y 0 - table 1)

/-- 43_block_transforms.md R172: DEC undoes ENC and ENC undoes DEC, for every block, round count and table. -/
def Obligations.EncAndDecAreInverse : Prop :=
  ∀ (w : Width) (table : Nat → Word w) (r : Nat) (ab : Word w × Word w),
    dec table r (enc table r ab) = ab ∧ enc table r (dec table r ab) = ab

/-- 43_block_transforms.md R173: with r = 0 the transforms are the whitening step. -/
def Obligations.ZeroRoundsIsWhitening : Prop :=
  ∀ (w : Width) (table : Nat → Word w) (a b : Word w),
    enc table 0 (a, b) = (a + table 0, b + table 1) ∧ dec table 0 (a, b) = (a - table 0, b - table 1)

/-- 43_block_transforms.md R174: ENC and DEC depend only on (A, B), r and S[0..2r+1]; so the commands' results do not
depend on S_LEN, on S[2r+2..], on K or on KEY_LEN. With an unspecified byte in S[0..2r+1] the results are unspecified
(70_reset_and_hazards.md R235), and EncryptCompletes and DecryptCompletes say what is written then. -/
def Obligations.TransformsReadOnlyTheirTable : Prop :=
  (∀ (w : Width) (table table' : Nat → Word w) (r : Nat) (ab : Word w × Word w),
    (∀ i, i ≤ 2 * r + 1 → table i = table' i) →
      enc table r ab = enc table' r ab ∧ dec table r ab = dec table' r ab) ∧
  ∀ (w : Width) (s s' : Inst w) (r : Nat), s'.a = s.a → s'.b = s.b →
    s.tableSpecified r = true → s'.tableSpecified r = true → (∀ i, i ≤ 2 * r + 1 → s'.readTable i = s.readTable i) →
      (encryptEffect r s').a = (encryptEffect r s).a ∧ (encryptEffect r s').b = (encryptEffect r s).b ∧
      (decryptEffect r s').a = (decryptEffect r s).a ∧ (decryptEffect r s').b = (decryptEffect r s).b

/-! ### Host register space -/

/-- The address map (20_memory.md R53, R54): every slot is found at its address and nowhere else, and an address
without a slot is misaligned or in one of the two holes. -/
def Obligations.AddressMapIsOneToOne : Prop :=
  (∀ slot : Slot, slotAt slot.addr = .ok slot) ∧
  (∀ addr slot, slotAt addr = .ok slot → slot.addr = addr) ∧
  (∀ addr : BitVec 13, slotAt addr = .error .misaligned ↔ addr.toNat % 8 ≠ 0) ∧
  (∀ addr : BitVec 13, slotAt addr = .error .unmapped ↔
    addr.toNat % 8 = 0 ∧ (0x0038 ≤ addr.toNat ∧ addr.toNat ≤ 0x07F8 ∨ addr.toNat = 0x0FF8)) ∧
  (∀ addr : BitVec 13, slotAt addr ≠ .error .busyLock)

/-- What a host read returns (20_memory.md R56): the addresses and values of R53, with S_LEN, A, B and S only while
BUSY = 0. A read that gets OK answers a next state in which the response carries that data (R55) and nothing else is
changed; that State keeps the latest response is the model's choice (notes/assumptions/11.md). -/
def Obligations.HostReadValues : Prop :=
  ∀ (w : Width) (s : Inst w),
    memRead 0x0000 s = .ok (BitVec.ofNat 64 (w.bits ||| 0xFF00)) ∧
    memRead 0x0008 s = .ok 0 ∧
    memRead 0x0010 s = .ok (BitVec.ofNat 64 (s.status.busy.toNat + 2 * s.status.done.toNat + 4 * s.status.err.toNat
      + 16 * s.status.errCode.toNat)) ∧
    memRead 0x0018 s = .ok (BitVec.ofNat 64 s.keyLen.toNat) ∧
    (∀ k, k < 255 → memRead (BitVec.ofNat 13 (0x0800 + 8 * k)) s = .ok (BitVec.ofNat 64 (s.readKey k).toNat)) ∧
    (s.status.busy = false →
      memRead 0x0020 s = .ok (BitVec.ofNat 64 s.sLen.toNat) ∧
      memRead 0x0028 s = .ok (BitVec.ofNat 64 s.a.toNat) ∧
      memRead 0x0030 s = .ok (BitVec.ofNat 64 s.b.toNat) ∧
      ∀ i, i < 512 → memRead (BitVec.ofNat 13 (0x1000 + 8 * i)) s = .ok (BitVec.ofNat 64 (s.readTable i).toNat)) ∧
    (∀ (addr : BitVec 13) (data : BitVec 64) (mark : Bool), memRead addr s = .ok data →
      hostRead addr mark ⟨w, s⟩ = .next ⟨w, { s with response := some (.readOk data) }⟩)

/-- The busy lock (20_memory.md R58): while BUSY = 1 every write, to any address, and every read of S_LEN, A, B or an
S[i] gets BUSERR and changes nothing; reads of ID, CMD, STATUS, KEY_LEN and K[k] get OK. That a BUSERR is recorded
as the response where the line is marked as expecting one, and stops the machine where it is not, is
notes/assumptions/6.md. -/
def Obligations.BusyLockRefusesAccesses : Prop :=
  ∀ (w : Width) (s : Inst w), s.status.busy = true →
    (∀ addr v, hostWrite addr v true ⟨w, s⟩ = .next ⟨w, { s with response := some .busErr }⟩ ∧
      ∃ e, hostWrite addr v false ⟨w, s⟩ = .fault e) ∧
    (∀ addr : BitVec 13, addr.toNat % 8 = 0 → (0x0020 ≤ addr.toNat ∧ addr.toNat ≤ 0x0030 ∨ 0x1000 ≤ addr.toNat) →
      hostRead addr true ⟨w, s⟩ = .next ⟨w, { s with response := some .busErr }⟩ ∧
      hostRead addr false ⟨w, s⟩ = .fault .busyLock) ∧
    (∀ addr : BitVec 13, addr.toNat % 8 = 0 →
      (addr.toNat ≤ 0x0018 ∨ 0x0800 ≤ addr.toNat ∧ addr.toNat < 0x0FF8) →
      ∀ mark, ∃ data, hostRead addr mark ⟨w, s⟩ = .next ⟨w, { s with response := some (.readOk data) }⟩)

/-- A misaligned or unmapped access (20_memory.md R51, R54, R55): BUSERR, read or write, busy or not, and no state
changes but the recorded response; without the mark the machine stops by that name (notes/assumptions/6.md). -/
def Obligations.BadAddressesGetBusError : Prop :=
  ∀ (w : Width) (s : Inst w) (addr : BitVec 13) (v : BitVec 64) (e : Fault),
    ((addr.toNat % 8 ≠ 0 ∧ e = .misaligned) ∨
      (addr.toNat % 8 = 0 ∧ (0x0038 ≤ addr.toNat ∧ addr.toNat ≤ 0x07F8 ∨ addr.toNat = 0x0FF8) ∧ e = .unmapped)) →
    hostRead addr true ⟨w, s⟩ = .next ⟨w, { s with response := some .busErr }⟩ ∧
    hostWrite addr v true ⟨w, s⟩ = .next ⟨w, { s with response := some .busErr }⟩ ∧
    hostRead addr false ⟨w, s⟩ = .fault e ∧ hostWrite addr v false ⟨w, s⟩ = .fault e

/-- What a host write does while BUSY = 0 (20_memory.md R57, 10_state.md R22, R23, R25, R27, R31 to R34): the low bits
are written, an S_LEN above 512 is left unchanged, ID and STATUS ignore writes; the response is OK. The bytes of the
entry of K or S that is written are specified from then on (70_reset_and_hazards.md R235), and every other byte keeps
its value and whether it is specified. A write to CMD
has StepRunsTheWrittenCommand and CommandWordIsReportedOrAccepted. -/
def Obligations.HostWriteEffects : Prop :=
  ∀ (w : Width) (s : Inst w) (v : BitVec 64) (mark : Bool), s.status.busy = false →
    hostWrite 0x0000 v mark ⟨w, s⟩ = .next ⟨w, { s with response := some .writeOk }⟩ ∧
    hostWrite 0x0010 v mark ⟨w, s⟩ = .next ⟨w, { s with response := some .writeOk }⟩ ∧
    hostWrite 0x0018 v mark ⟨w, s⟩ =
      .next ⟨w, { s with keyLen := BitVec.ofNat 8 v.toNat, response := some .writeOk }⟩ ∧
    (v.toNat % 1024 ≤ 512 → hostWrite 0x0020 v mark ⟨w, s⟩ =
      .next ⟨w, { s with sLen := BitVec.ofNat 10 v.toNat, response := some .writeOk }⟩) ∧
    (512 < v.toNat % 1024 → hostWrite 0x0020 v mark ⟨w, s⟩ = .next ⟨w, { s with response := some .writeOk }⟩) ∧
    hostWrite 0x0028 v mark ⟨w, s⟩ =
      .next ⟨w, { s with a := BitVec.ofNat w.bits v.toNat, response := some .writeOk }⟩ ∧
    hostWrite 0x0030 v mark ⟨w, s⟩ =
      .next ⟨w, { s with b := BitVec.ofNat w.bits v.toNat, response := some .writeOk }⟩ ∧
    (∀ k, k < 255 → ∃ t : Inst w, hostWrite (BitVec.ofNat 13 (0x0800 + 8 * k)) v mark ⟨w, s⟩ = .next ⟨w, t⟩ ∧
      t.readKey k = BitVec.ofNat 8 v.toNat ∧ t.mem.read (0x0800 + 8 * k) ≠ none ∧
      (∀ addr, addr ≠ 0x0800 + 8 * k →
        t.readByte addr = s.readByte addr ∧ t.mem.read addr = s.mem.read addr) ∧
      t = { s with mem := t.mem, response := some .writeOk }) ∧
    (∀ i, i < 512 → ∃ t : Inst w, hostWrite (BitVec.ofNat 13 (0x1000 + 8 * i)) v mark ⟨w, s⟩ = .next ⟨w, t⟩ ∧
      t.readTable i = BitVec.ofNat w.bits v.toNat ∧
      (∀ m, m < w.bytes → t.mem.read (0x1000 + 8 * i + m) ≠ none) ∧
      (∀ addr, (∀ m, m < w.bytes → addr ≠ 0x1000 + 8 * i + m) →
        t.readByte addr = s.readByte addr ∧ t.mem.read addr = s.mem.read addr) ∧
      t = { s with mem := t.mem, response := some .writeOk })

/-- A host write other than to CMD changes what one address reads as, and no other (20_memory.md R54, R57, R59). -/
def Obligations.HostWriteChangesOneAddress : Prop :=
  ∀ (w : Width) (s : Inst w) (t : State) (addr addr' : BitVec 13) (v : BitVec 64) (mark : Bool),
    addr ≠ 0x0008 → addr' ≠ addr → hostWrite addr v mark ⟨w, s⟩ = .next t →
      ∃ u : Inst w, t = ⟨w, u⟩ ∧ memRead addr' u = memRead addr' s

/-- A host read right after a host write to the same register returns the value written, subject to the field rules
(70_reset_and_hazards.md R246): the low 8 bits of KEY_LEN and K, the low W bits of A, B and S. -/
def Obligations.ReadBackAfterWrite : Prop :=
  ∀ (w : Width) (s : Inst w) (addr : BitVec 13) (v : BitVec 64) (mark : Bool), s.status.busy = false →
    ((addr = 0x0018 ∨ (addr.toNat % 8 = 0 ∧ 0x0800 ≤ addr.toNat ∧ addr.toNat < 0x0FF8)) →
      ∃ t : Inst w, hostWrite addr v mark ⟨w, s⟩ = .next ⟨w, t⟩ ∧
        memRead addr t = .ok (BitVec.ofNat 64 (v.toNat % 256))) ∧
    ((addr = 0x0028 ∨ addr = 0x0030 ∨ (addr.toNat % 8 = 0 ∧ 0x1000 ≤ addr.toNat)) →
      ∃ t : Inst w, hostWrite addr v mark ⟨w, s⟩ = .next ⟨w, t⟩ ∧
        memRead addr t = .ok (BitVec.ofNat 64 (v.toNat % 2 ^ w.bits)))

/-- Reads have no side effect (20_memory.md R56, R59): a host read changes only the recorded response, so two reads of
one address with nothing between them give the same response. -/
def Obligations.ReadsHaveNoSideEffect : Prop :=
  ∀ (w : Width) (s : Inst w) (t : State) (addr : BitVec 13) (mark : Bool),
    hostRead addr mark ⟨w, s⟩ = .next t →
      ∃ u : Inst w, t = ⟨w, u⟩ ∧ u = { s with response := u.response } ∧
        hostRead addr mark ⟨w, u⟩ = .next ⟨w, u⟩

/-- The WAIT loop (30_encoding.md R97): a poll reads STATUS and stays at the loop while bit 0 is 1, else the host goes
on. -/
def Obligations.WaitPollsStatus : Prop :=
  ∀ (w : Width) (s : Inst w) (rest : List HostOp), s.prog = .wait :: rest →
    (s.status.busy = true →
      hostStep ⟨w, s⟩ = .next ⟨w, { s with response := some (.readOk s.status.word) }⟩) ∧
    (s.status.busy = false →
      hostStep ⟨w, s⟩ = .next ⟨w, { s with prog := rest, response := some (.readOk s.status.word) }⟩)
end

