-- ==== Sys2Proof/Laws/Datapath.lean ====
section
/-! SUPPORT. The rotator as the bit-vector library's rotations, and the table and buffer lengths of the key schedule. -/

namespace Sys2Proof.Machine

open Sys2Proof

variable {w : Width}

theorem rotlW_eq_rotateLeft (x : Word w) (y : Nat) : rotlW x y = x.rotateLeft y := by
  unfold rotlW
  split
  · rename_i h
    rw [← BitVec.rotateLeft_mod_eq_rotateLeft, h]
    simp [BitVec.rotateLeft_def, BitVec.ushiftRight_eq_zero]
  · simp [orW, shlW, shrW, BitVec.rotateLeft_def]

theorem rotrW_eq_rotateRight (x : Word w) (y : Nat) : rotrW x y = x.rotateRight y := by
  unfold rotrW
  split
  · rename_i h
    rw [← BitVec.rotateRight_mod_eq_rotateRight, h]
    simp [BitVec.rotateRight_def, BitVec.shiftLeft_eq_zero]
  · simp [orW, shlW, shrW, BitVec.rotateRight_def]

@[simp] theorem length_packByte (idx : Nat) (k : Byte) (l : List (Word w)) : (packByte idx k l).length = l.length := by
  simp [packByte]

@[simp] theorem length_packLoop (key : Nat → Byte) (n : Nat) (l : List (Word w)) :
    (packLoop key n l).length = l.length := by
  induction n generalizing l with
  | zero => rfl
  | succ n ih => simp [packLoop, ih]

@[simp] theorem length_pack (w : Width) (key : Nat → Byte) (b : Nat) : (pack w key b).length = bufferLength w b := by
  simp [pack]

@[simp] theorem length_initLoop (n : Nat) (x : Word w) : (initLoop n x).length = n := by
  induction n generalizing x with
  | zero => rfl
  | succ n ih => simp [initLoop, ih]

@[simp] theorem length_mixStep_s (t c : Nat) (m : Mixing w) : (mixStep t c m).s.length = m.s.length := by
  simp [mixStep]

@[simp] theorem length_mixStep_l (t c : Nat) (m : Mixing w) : (mixStep t c m).l.length = m.l.length := by
  simp [mixStep]

@[simp] theorem length_mixLoop_s (t c n : Nat) (m : Mixing w) : (mixLoop t c n m).s.length = m.s.length := by
  induction n generalizing m with
  | zero => rfl
  | succ n ih => simp [mixLoop, ih]

@[simp] theorem length_expandedTable (w : Width) (key : Nat → Byte) (b r : Nat) :
    (expandedTable w key b r).length = tableLength r := by
  simp [expandedTable, Mixing.start, initTable]

theorem bufferLength_pos (w : Width) (b : Nat) : 0 < bufferLength w b := by
  simp only [bufferLength]; omega

/-! ### Bytes and Words -/

/-- Everything the conversion of bytes to a Word can do: a Word for u bytes, exact, and a refusal otherwise. -/
theorem wordOfBytes?_cases (w : Width) (xs : List Byte) :
    (xs.length = w.bytes ∧ wordOfBytes? w xs = some (BitVec.ofNat w.bits (natOfBytes xs))) ∨
    (xs.length ≠ w.bytes ∧ wordOfBytes? w xs = none) := by
  unfold wordOfBytes?
  split
  · exact .inl ⟨‹_›, rfl⟩
  · exact .inr ⟨‹_›, rfl⟩

/-- Bytes that are no block are refused. -/
theorem blockOfBytes?_eq_none {w : Width} {xs : List Byte} (h : xs.length ≠ 2 * w.bytes) :
    blockOfBytes? w xs = none := by
  unfold blockOfBytes?
  rcases wordOfBytes?_cases w (xs.take w.bytes) with ⟨ha, ea⟩ | ⟨_, ea⟩ <;>
    rcases wordOfBytes?_cases w (xs.drop w.bytes) with ⟨hb, eb⟩ | ⟨_, eb⟩ <;> simp only [ea, eb]
  simp only [List.length_take, List.length_drop] at ha hb
  omega

end Sys2Proof.Machine
end

