-- ==== Sys2Proof/Laws/State.lean ====
section
/-! SUPPORT. One lemma per field per named update, each true by rfl; and how the reads of K and S see the updates that
write neither. -/

namespace Sys2Proof.Machine

open Sys2Proof

variable {w : Width}

@[simp] theorem map_width (s : State) (f : Inst s.width → Inst s.width) : (s.map f).width = s.width := rfl

@[simp] theorem map_mk (s : Inst w) (f : Inst w → Inst w) : State.map ⟨w, s⟩ f = ⟨w, f s⟩ := rfl

/-! ### writeKeyLen -/

@[simp] theorem writeKeyLen_a (s : Inst w) (v : BitVec 8) :
    (s.writeKeyLen v).a = s.a := rfl

@[simp] theorem writeKeyLen_b (s : Inst w) (v : BitVec 8) :
    (s.writeKeyLen v).b = s.b := rfl

@[simp] theorem writeKeyLen_status (s : Inst w) (v : BitVec 8) :
    (s.writeKeyLen v).status = s.status := rfl

@[simp] theorem writeKeyLen_keyLen (s : Inst w) (v : BitVec 8) :
    (s.writeKeyLen v).keyLen = v := rfl

@[simp] theorem writeKeyLen_sLen (s : Inst w) (v : BitVec 8) :
    (s.writeKeyLen v).sLen = s.sLen := rfl

@[simp] theorem writeKeyLen_mem (s : Inst w) (v : BitVec 8) :
    (s.writeKeyLen v).mem = s.mem := rfl

@[simp] theorem writeKeyLen_lDraw (s : Inst w) (v : BitVec 8) :
    (s.writeKeyLen v).lDraw = s.lDraw := rfl

@[simp] theorem writeKeyLen_pending (s : Inst w) (v : BitVec 8) :
    (s.writeKeyLen v).pending = s.pending := rfl

@[simp] theorem writeKeyLen_ramDraw (s : Inst w) (v : BitVec 8) :
    (s.writeKeyLen v).ramDraw = s.ramDraw := rfl

@[simp] theorem writeKeyLen_tableDraws (s : Inst w) (v : BitVec 8) :
    (s.writeKeyLen v).tableDraws = s.tableDraws := rfl

@[simp] theorem writeKeyLen_resultDraw (s : Inst w) (v : BitVec 8) :
    (s.writeKeyLen v).resultDraw = s.resultDraw := rfl

@[simp] theorem writeKeyLen_prog (s : Inst w) (v : BitVec 8) :
    (s.writeKeyLen v).prog = s.prog := rfl

@[simp] theorem writeKeyLen_sched (s : Inst w) (v : BitVec 8) :
    (s.writeKeyLen v).sched = s.sched := rfl

@[simp] theorem writeKeyLen_response (s : Inst w) (v : BitVec 8) :
    (s.writeKeyLen v).response = s.response := rfl

@[simp] theorem writeKeyLen_readByte (s : Inst w) (v : BitVec 8) (addr : Nat) :
    (s.writeKeyLen v).readByte addr = s.readByte addr := rfl

@[simp] theorem writeKeyLen_readLanes (s : Inst w) (v : BitVec 8) (addr n : Nat) :
    (s.writeKeyLen v).readLanes addr n = s.readLanes addr n := by
  induction n generalizing addr with
  | zero => rfl
  | succ n ih => simp [Inst.readLanes, ih]

@[simp] theorem writeKeyLen_readKey (s : Inst w) (v : BitVec 8) :
    (s.writeKeyLen v).readKey = s.readKey := rfl

@[simp] theorem writeKeyLen_readTable (s : Inst w) (v : BitVec 8) :
    (s.writeKeyLen v).readTable = s.readTable := by
  funext idx
  simp [Inst.readTable]

/-! ### writeA -/

@[simp] theorem writeA_a (s : Inst w) (x : Word w) :
    (s.writeA x).a = x := rfl

@[simp] theorem writeA_b (s : Inst w) (x : Word w) :
    (s.writeA x).b = s.b := rfl

@[simp] theorem writeA_status (s : Inst w) (x : Word w) :
    (s.writeA x).status = s.status := rfl

@[simp] theorem writeA_keyLen (s : Inst w) (x : Word w) :
    (s.writeA x).keyLen = s.keyLen := rfl

@[simp] theorem writeA_sLen (s : Inst w) (x : Word w) :
    (s.writeA x).sLen = s.sLen := rfl

@[simp] theorem writeA_mem (s : Inst w) (x : Word w) :
    (s.writeA x).mem = s.mem := rfl

@[simp] theorem writeA_lDraw (s : Inst w) (x : Word w) :
    (s.writeA x).lDraw = s.lDraw := rfl

@[simp] theorem writeA_pending (s : Inst w) (x : Word w) :
    (s.writeA x).pending = s.pending := rfl

@[simp] theorem writeA_ramDraw (s : Inst w) (x : Word w) :
    (s.writeA x).ramDraw = s.ramDraw := rfl

@[simp] theorem writeA_tableDraws (s : Inst w) (x : Word w) :
    (s.writeA x).tableDraws = s.tableDraws := rfl

@[simp] theorem writeA_resultDraw (s : Inst w) (x : Word w) :
    (s.writeA x).resultDraw = s.resultDraw := rfl

@[simp] theorem writeA_prog (s : Inst w) (x : Word w) :
    (s.writeA x).prog = s.prog := rfl

@[simp] theorem writeA_sched (s : Inst w) (x : Word w) :
    (s.writeA x).sched = s.sched := rfl

@[simp] theorem writeA_response (s : Inst w) (x : Word w) :
    (s.writeA x).response = s.response := rfl

@[simp] theorem writeA_readByte (s : Inst w) (x : Word w) (addr : Nat) :
    (s.writeA x).readByte addr = s.readByte addr := rfl

@[simp] theorem writeA_readLanes (s : Inst w) (x : Word w) (addr n : Nat) :
    (s.writeA x).readLanes addr n = s.readLanes addr n := by
  induction n generalizing addr with
  | zero => rfl
  | succ n ih => simp [Inst.readLanes, ih]

@[simp] theorem writeA_readKey (s : Inst w) (x : Word w) :
    (s.writeA x).readKey = s.readKey := rfl

@[simp] theorem writeA_readTable (s : Inst w) (x : Word w) :
    (s.writeA x).readTable = s.readTable := by
  funext idx
  simp [Inst.readTable]

@[simp] theorem writeA_keySpecified (s : Inst w) (x : Word w) :
    (s.writeA x).keySpecified = s.keySpecified := rfl

@[simp] theorem writeA_tableSpecified (s : Inst w) (x : Word w) :
    (s.writeA x).tableSpecified = s.tableSpecified := rfl

/-! ### writeB -/

@[simp] theorem writeB_a (s : Inst w) (x : Word w) :
    (s.writeB x).a = s.a := rfl

@[simp] theorem writeB_b (s : Inst w) (x : Word w) :
    (s.writeB x).b = x := rfl

@[simp] theorem writeB_status (s : Inst w) (x : Word w) :
    (s.writeB x).status = s.status := rfl

@[simp] theorem writeB_keyLen (s : Inst w) (x : Word w) :
    (s.writeB x).keyLen = s.keyLen := rfl

@[simp] theorem writeB_sLen (s : Inst w) (x : Word w) :
    (s.writeB x).sLen = s.sLen := rfl

@[simp] theorem writeB_mem (s : Inst w) (x : Word w) :
    (s.writeB x).mem = s.mem := rfl

@[simp] theorem writeB_lDraw (s : Inst w) (x : Word w) :
    (s.writeB x).lDraw = s.lDraw := rfl

@[simp] theorem writeB_pending (s : Inst w) (x : Word w) :
    (s.writeB x).pending = s.pending := rfl

@[simp] theorem writeB_ramDraw (s : Inst w) (x : Word w) :
    (s.writeB x).ramDraw = s.ramDraw := rfl

@[simp] theorem writeB_tableDraws (s : Inst w) (x : Word w) :
    (s.writeB x).tableDraws = s.tableDraws := rfl

@[simp] theorem writeB_resultDraw (s : Inst w) (x : Word w) :
    (s.writeB x).resultDraw = s.resultDraw := rfl

@[simp] theorem writeB_prog (s : Inst w) (x : Word w) :
    (s.writeB x).prog = s.prog := rfl

@[simp] theorem writeB_sched (s : Inst w) (x : Word w) :
    (s.writeB x).sched = s.sched := rfl

@[simp] theorem writeB_response (s : Inst w) (x : Word w) :
    (s.writeB x).response = s.response := rfl

@[simp] theorem writeB_readByte (s : Inst w) (x : Word w) (addr : Nat) :
    (s.writeB x).readByte addr = s.readByte addr := rfl

@[simp] theorem writeB_readLanes (s : Inst w) (x : Word w) (addr n : Nat) :
    (s.writeB x).readLanes addr n = s.readLanes addr n := by
  induction n generalizing addr with
  | zero => rfl
  | succ n ih => simp [Inst.readLanes, ih]

@[simp] theorem writeB_readKey (s : Inst w) (x : Word w) :
    (s.writeB x).readKey = s.readKey := rfl

@[simp] theorem writeB_readTable (s : Inst w) (x : Word w) :
    (s.writeB x).readTable = s.readTable := by
  funext idx
  simp [Inst.readTable]

@[simp] theorem writeB_keySpecified (s : Inst w) (x : Word w) :
    (s.writeB x).keySpecified = s.keySpecified := rfl

@[simp] theorem writeB_tableSpecified (s : Inst w) (x : Word w) :
    (s.writeB x).tableSpecified = s.tableSpecified := rfl

/-! ### writeKey -/

@[simp] theorem writeKey_a (s : Inst w) (k : Nat) (v : Byte) :
    (s.writeKey k v).a = s.a := rfl

@[simp] theorem writeKey_b (s : Inst w) (k : Nat) (v : Byte) :
    (s.writeKey k v).b = s.b := rfl

@[simp] theorem writeKey_status (s : Inst w) (k : Nat) (v : Byte) :
    (s.writeKey k v).status = s.status := rfl

@[simp] theorem writeKey_keyLen (s : Inst w) (k : Nat) (v : Byte) :
    (s.writeKey k v).keyLen = s.keyLen := rfl

@[simp] theorem writeKey_sLen (s : Inst w) (k : Nat) (v : Byte) :
    (s.writeKey k v).sLen = s.sLen := rfl

@[simp] theorem writeKey_mem (s : Inst w) (k : Nat) (v : Byte) :
    (s.writeKey k v).mem = s.mem.write (keyAddr k) v := rfl

@[simp] theorem writeKey_lDraw (s : Inst w) (k : Nat) (v : Byte) :
    (s.writeKey k v).lDraw = s.lDraw := rfl

@[simp] theorem writeKey_pending (s : Inst w) (k : Nat) (v : Byte) :
    (s.writeKey k v).pending = s.pending := rfl

@[simp] theorem writeKey_ramDraw (s : Inst w) (k : Nat) (v : Byte) :
    (s.writeKey k v).ramDraw = s.ramDraw := rfl

@[simp] theorem writeKey_tableDraws (s : Inst w) (k : Nat) (v : Byte) :
    (s.writeKey k v).tableDraws = s.tableDraws := rfl

@[simp] theorem writeKey_resultDraw (s : Inst w) (k : Nat) (v : Byte) :
    (s.writeKey k v).resultDraw = s.resultDraw := rfl

@[simp] theorem writeKey_prog (s : Inst w) (k : Nat) (v : Byte) :
    (s.writeKey k v).prog = s.prog := rfl

@[simp] theorem writeKey_sched (s : Inst w) (k : Nat) (v : Byte) :
    (s.writeKey k v).sched = s.sched := rfl

@[simp] theorem writeKey_response (s : Inst w) (k : Nat) (v : Byte) :
    (s.writeKey k v).response = s.response := rfl

/-! ### writeTable -/

@[simp] theorem writeTable_a (s : Inst w) (i : Nat) (xs : List (Word w)) :
    (s.writeTable i xs).a = s.a := rfl

@[simp] theorem writeTable_b (s : Inst w) (i : Nat) (xs : List (Word w)) :
    (s.writeTable i xs).b = s.b := rfl

@[simp] theorem writeTable_status (s : Inst w) (i : Nat) (xs : List (Word w)) :
    (s.writeTable i xs).status = s.status := rfl

@[simp] theorem writeTable_keyLen (s : Inst w) (i : Nat) (xs : List (Word w)) :
    (s.writeTable i xs).keyLen = s.keyLen := rfl

@[simp] theorem writeTable_sLen (s : Inst w) (i : Nat) (xs : List (Word w)) :
    (s.writeTable i xs).sLen = s.sLen := rfl

@[simp] theorem writeTable_mem (s : Inst w) (i : Nat) (xs : List (Word w)) :
    (s.writeTable i xs).mem = s.mem.writeTable i xs := rfl

@[simp] theorem writeTable_lDraw (s : Inst w) (i : Nat) (xs : List (Word w)) :
    (s.writeTable i xs).lDraw = s.lDraw := rfl

@[simp] theorem writeTable_pending (s : Inst w) (i : Nat) (xs : List (Word w)) :
    (s.writeTable i xs).pending = s.pending := rfl

@[simp] theorem writeTable_ramDraw (s : Inst w) (i : Nat) (xs : List (Word w)) :
    (s.writeTable i xs).ramDraw = s.ramDraw := rfl

@[simp] theorem writeTable_tableDraws (s : Inst w) (i : Nat) (xs : List (Word w)) :
    (s.writeTable i xs).tableDraws = s.tableDraws := rfl

@[simp] theorem writeTable_resultDraw (s : Inst w) (i : Nat) (xs : List (Word w)) :
    (s.writeTable i xs).resultDraw = s.resultDraw := rfl

@[simp] theorem writeTable_prog (s : Inst w) (i : Nat) (xs : List (Word w)) :
    (s.writeTable i xs).prog = s.prog := rfl

@[simp] theorem writeTable_sched (s : Inst w) (i : Nat) (xs : List (Word w)) :
    (s.writeTable i xs).sched = s.sched := rfl

@[simp] theorem writeTable_response (s : Inst w) (i : Nat) (xs : List (Word w)) :
    (s.writeTable i xs).response = s.response := rfl

/-! ### writeBlock -/

@[simp] theorem writeBlock_a (s : Inst w) (ab : Word w × Word w) :
    (s.writeBlock ab).a = ab.1 := rfl

@[simp] theorem writeBlock_b (s : Inst w) (ab : Word w × Word w) :
    (s.writeBlock ab).b = ab.2 := rfl

@[simp] theorem writeBlock_status (s : Inst w) (ab : Word w × Word w) :
    (s.writeBlock ab).status = s.status := rfl

@[simp] theorem writeBlock_keyLen (s : Inst w) (ab : Word w × Word w) :
    (s.writeBlock ab).keyLen = s.keyLen := rfl

@[simp] theorem writeBlock_sLen (s : Inst w) (ab : Word w × Word w) :
    (s.writeBlock ab).sLen = s.sLen := rfl

@[simp] theorem writeBlock_mem (s : Inst w) (ab : Word w × Word w) :
    (s.writeBlock ab).mem = s.mem := rfl

@[simp] theorem writeBlock_lDraw (s : Inst w) (ab : Word w × Word w) :
    (s.writeBlock ab).lDraw = s.lDraw := rfl

@[simp] theorem writeBlock_pending (s : Inst w) (ab : Word w × Word w) :
    (s.writeBlock ab).pending = s.pending := rfl

@[simp] theorem writeBlock_ramDraw (s : Inst w) (ab : Word w × Word w) :
    (s.writeBlock ab).ramDraw = s.ramDraw := rfl

@[simp] theorem writeBlock_tableDraws (s : Inst w) (ab : Word w × Word w) :
    (s.writeBlock ab).tableDraws = s.tableDraws := rfl

@[simp] theorem writeBlock_resultDraw (s : Inst w) (ab : Word w × Word w) :
    (s.writeBlock ab).resultDraw = s.resultDraw := rfl

@[simp] theorem writeBlock_prog (s : Inst w) (ab : Word w × Word w) :
    (s.writeBlock ab).prog = s.prog := rfl

@[simp] theorem writeBlock_sched (s : Inst w) (ab : Word w × Word w) :
    (s.writeBlock ab).sched = s.sched := rfl

@[simp] theorem writeBlock_response (s : Inst w) (ab : Word w × Word w) :
    (s.writeBlock ab).response = s.response := rfl

@[simp] theorem writeBlock_readByte (s : Inst w) (ab : Word w × Word w) (addr : Nat) :
    (s.writeBlock ab).readByte addr = s.readByte addr := rfl

@[simp] theorem writeBlock_readLanes (s : Inst w) (ab : Word w × Word w) (addr n : Nat) :
    (s.writeBlock ab).readLanes addr n = s.readLanes addr n := by
  induction n generalizing addr with
  | zero => rfl
  | succ n ih => simp [Inst.readLanes, ih]

@[simp] theorem writeBlock_readKey (s : Inst w) (ab : Word w × Word w) :
    (s.writeBlock ab).readKey = s.readKey := rfl

@[simp] theorem writeBlock_readTable (s : Inst w) (ab : Word w × Word w) :
    (s.writeBlock ab).readTable = s.readTable := by
  funext idx
  simp [Inst.readTable]

@[simp] theorem writeBlock_keySpecified (s : Inst w) (ab : Word w × Word w) :
    (s.writeBlock ab).keySpecified = s.keySpecified := rfl

@[simp] theorem writeBlock_tableSpecified (s : Inst w) (ab : Word w × Word w) :
    (s.writeBlock ab).tableSpecified = s.tableSpecified := rfl

/-! ### drawBlock -/

@[simp] theorem drawBlock_a (s : Inst w) :
    (s.drawBlock).a = s.drawnWord 0 := rfl

@[simp] theorem drawBlock_b (s : Inst w) :
    (s.drawBlock).b = s.drawnWord 1 := rfl

@[simp] theorem drawBlock_status (s : Inst w) :
    (s.drawBlock).status = s.status := rfl

@[simp] theorem drawBlock_keyLen (s : Inst w) :
    (s.drawBlock).keyLen = s.keyLen := rfl

@[simp] theorem drawBlock_sLen (s : Inst w) :
    (s.drawBlock).sLen = s.sLen := rfl

@[simp] theorem drawBlock_mem (s : Inst w) :
    (s.drawBlock).mem = s.mem := rfl

@[simp] theorem drawBlock_lDraw (s : Inst w) :
    (s.drawBlock).lDraw = s.lDraw := rfl

@[simp] theorem drawBlock_pending (s : Inst w) :
    (s.drawBlock).pending = s.pending := rfl

@[simp] theorem drawBlock_ramDraw (s : Inst w) :
    (s.drawBlock).ramDraw = s.ramDraw := rfl

@[simp] theorem drawBlock_tableDraws (s : Inst w) :
    (s.drawBlock).tableDraws = s.tableDraws := rfl

@[simp] theorem drawBlock_resultDraw (s : Inst w) :
    (s.drawBlock).resultDraw = s.resultDraw + 1 := rfl

@[simp] theorem drawBlock_prog (s : Inst w) :
    (s.drawBlock).prog = s.prog := rfl

@[simp] theorem drawBlock_sched (s : Inst w) :
    (s.drawBlock).sched = s.sched := rfl

@[simp] theorem drawBlock_response (s : Inst w) :
    (s.drawBlock).response = s.response := rfl

@[simp] theorem drawBlock_readByte (s : Inst w) (addr : Nat) :
    (s.drawBlock).readByte addr = s.readByte addr := rfl

@[simp] theorem drawBlock_readLanes (s : Inst w) (addr n : Nat) :
    (s.drawBlock).readLanes addr n = s.readLanes addr n := by
  induction n generalizing addr with
  | zero => rfl
  | succ n ih => simp [Inst.readLanes, ih]

@[simp] theorem drawBlock_readKey (s : Inst w) :
    (s.drawBlock).readKey = s.readKey := rfl

@[simp] theorem drawBlock_readTable (s : Inst w) :
    (s.drawBlock).readTable = s.readTable := by
  funext idx
  simp [Inst.readTable]

@[simp] theorem drawBlock_keySpecified (s : Inst w) :
    (s.drawBlock).keySpecified = s.keySpecified := rfl

@[simp] theorem drawBlock_tableSpecified (s : Inst w) :
    (s.drawBlock).tableSpecified = s.tableSpecified := rfl

/-! ### drawTable -/

@[simp] theorem drawTable_a (s : Inst w) (n : Nat) :
    (s.drawTable n).a = s.a := rfl

@[simp] theorem drawTable_b (s : Inst w) (n : Nat) :
    (s.drawTable n).b = s.b := rfl

@[simp] theorem drawTable_status (s : Inst w) (n : Nat) :
    (s.drawTable n).status = s.status := rfl

@[simp] theorem drawTable_keyLen (s : Inst w) (n : Nat) :
    (s.drawTable n).keyLen = s.keyLen := rfl

@[simp] theorem drawTable_sLen (s : Inst w) (n : Nat) :
    (s.drawTable n).sLen = BitVec.ofNat 10 (Config.resultLength s.resultDraw).val := rfl

@[simp] theorem drawTable_mem (s : Inst w) (n : Nat) :
    (s.drawTable n).mem = s.mem.dropTable w n := rfl

@[simp] theorem drawTable_lDraw (s : Inst w) (n : Nat) :
    (s.drawTable n).lDraw = s.lDraw := rfl

@[simp] theorem drawTable_pending (s : Inst w) (n : Nat) :
    (s.drawTable n).pending = s.pending := rfl

@[simp] theorem drawTable_ramDraw (s : Inst w) (n : Nat) :
    (s.drawTable n).ramDraw = s.ramDraw := rfl

@[simp] theorem drawTable_tableDraws (s : Inst w) (n : Nat) :
    (s.drawTable n).tableDraws = n :: s.tableDraws := rfl

@[simp] theorem drawTable_resultDraw (s : Inst w) (n : Nat) :
    (s.drawTable n).resultDraw = s.resultDraw + 1 := rfl

@[simp] theorem drawTable_prog (s : Inst w) (n : Nat) :
    (s.drawTable n).prog = s.prog := rfl

@[simp] theorem drawTable_sched (s : Inst w) (n : Nat) :
    (s.drawTable n).sched = s.sched := rfl

@[simp] theorem drawTable_response (s : Inst w) (n : Nat) :
    (s.drawTable n).response = s.response := rfl

/-! ### drawBuffer -/

@[simp] theorem drawBuffer_a (s : Inst w) :
    (s.drawBuffer).a = s.a := rfl

@[simp] theorem drawBuffer_b (s : Inst w) :
    (s.drawBuffer).b = s.b := rfl

@[simp] theorem drawBuffer_status (s : Inst w) :
    (s.drawBuffer).status = s.status := rfl

@[simp] theorem drawBuffer_keyLen (s : Inst w) :
    (s.drawBuffer).keyLen = s.keyLen := rfl

@[simp] theorem drawBuffer_sLen (s : Inst w) :
    (s.drawBuffer).sLen = s.sLen := rfl

@[simp] theorem drawBuffer_mem (s : Inst w) :
    (s.drawBuffer).mem = s.mem := rfl

@[simp] theorem drawBuffer_lDraw (s : Inst w) :
    (s.drawBuffer).lDraw = s.lDraw + 1 := rfl

@[simp] theorem drawBuffer_pending (s : Inst w) :
    (s.drawBuffer).pending = s.pending := rfl

@[simp] theorem drawBuffer_ramDraw (s : Inst w) :
    (s.drawBuffer).ramDraw = s.ramDraw := rfl

@[simp] theorem drawBuffer_tableDraws (s : Inst w) :
    (s.drawBuffer).tableDraws = s.tableDraws := rfl

@[simp] theorem drawBuffer_resultDraw (s : Inst w) :
    (s.drawBuffer).resultDraw = s.resultDraw := rfl

@[simp] theorem drawBuffer_prog (s : Inst w) :
    (s.drawBuffer).prog = s.prog := rfl

@[simp] theorem drawBuffer_sched (s : Inst w) :
    (s.drawBuffer).sched = s.sched := rfl

@[simp] theorem drawBuffer_response (s : Inst w) :
    (s.drawBuffer).response = s.response := rfl

@[simp] theorem drawBuffer_readByte (s : Inst w) (addr : Nat) :
    (s.drawBuffer).readByte addr = s.readByte addr := rfl

@[simp] theorem drawBuffer_readLanes (s : Inst w) (addr n : Nat) :
    (s.drawBuffer).readLanes addr n = s.readLanes addr n := by
  induction n generalizing addr with
  | zero => rfl
  | succ n ih => simp [Inst.readLanes, ih]

@[simp] theorem drawBuffer_readKey (s : Inst w) :
    (s.drawBuffer).readKey = s.readKey := rfl

@[simp] theorem drawBuffer_readTable (s : Inst w) :
    (s.drawBuffer).readTable = s.readTable := by
  funext idx
  simp [Inst.readTable]

@[simp] theorem drawBuffer_keySpecified (s : Inst w) :
    (s.drawBuffer).keySpecified = s.keySpecified := rfl

@[simp] theorem drawBuffer_tableSpecified (s : Inst w) :
    (s.drawBuffer).tableSpecified = s.tableSpecified := rfl

/-! ### writeExpandedKey -/

@[simp] theorem writeExpandedKey_a (s : Inst w) (r : Nat) :
    (s.writeExpandedKey r).a = s.a := rfl

@[simp] theorem writeExpandedKey_b (s : Inst w) (r : Nat) :
    (s.writeExpandedKey r).b = s.b := rfl

@[simp] theorem writeExpandedKey_status (s : Inst w) (r : Nat) :
    (s.writeExpandedKey r).status = s.status := rfl

@[simp] theorem writeExpandedKey_keyLen (s : Inst w) (r : Nat) :
    (s.writeExpandedKey r).keyLen = s.keyLen := rfl

@[simp] theorem writeExpandedKey_sLen (s : Inst w) (r : Nat) :
    (s.writeExpandedKey r).sLen = BitVec.ofNat 10 (tableLength r) := rfl

@[simp] theorem writeExpandedKey_mem (s : Inst w) (r : Nat) :
    (s.writeExpandedKey r).mem = s.mem.writeTable 0 (expandedTable w s.readKey s.keyLen.toNat r) := rfl

@[simp] theorem writeExpandedKey_lDraw (s : Inst w) (r : Nat) :
    (s.writeExpandedKey r).lDraw = s.lDraw := rfl

@[simp] theorem writeExpandedKey_pending (s : Inst w) (r : Nat) :
    (s.writeExpandedKey r).pending = s.pending := rfl

@[simp] theorem writeExpandedKey_ramDraw (s : Inst w) (r : Nat) :
    (s.writeExpandedKey r).ramDraw = s.ramDraw := rfl

@[simp] theorem writeExpandedKey_tableDraws (s : Inst w) (r : Nat) :
    (s.writeExpandedKey r).tableDraws = s.tableDraws := rfl

@[simp] theorem writeExpandedKey_resultDraw (s : Inst w) (r : Nat) :
    (s.writeExpandedKey r).resultDraw = s.resultDraw := rfl

@[simp] theorem writeExpandedKey_prog (s : Inst w) (r : Nat) :
    (s.writeExpandedKey r).prog = s.prog := rfl

@[simp] theorem writeExpandedKey_sched (s : Inst w) (r : Nat) :
    (s.writeExpandedKey r).sched = s.sched := rfl

@[simp] theorem writeExpandedKey_response (s : Inst w) (r : Nat) :
    (s.writeExpandedKey r).response = s.response := rfl

/-! ### raiseError -/

@[simp] theorem raiseError_a (s : Inst w) (e : ErrCode) :
    (raiseError e s).a = s.a := rfl

@[simp] theorem raiseError_b (s : Inst w) (e : ErrCode) :
    (raiseError e s).b = s.b := rfl

@[simp] theorem raiseError_status (s : Inst w) (e : ErrCode) :
    (raiseError e s).status = Status.rejected e := rfl

@[simp] theorem raiseError_keyLen (s : Inst w) (e : ErrCode) :
    (raiseError e s).keyLen = s.keyLen := rfl

@[simp] theorem raiseError_sLen (s : Inst w) (e : ErrCode) :
    (raiseError e s).sLen = s.sLen := rfl

@[simp] theorem raiseError_mem (s : Inst w) (e : ErrCode) :
    (raiseError e s).mem = s.mem := rfl

@[simp] theorem raiseError_lDraw (s : Inst w) (e : ErrCode) :
    (raiseError e s).lDraw = s.lDraw := rfl

@[simp] theorem raiseError_pending (s : Inst w) (e : ErrCode) :
    (raiseError e s).pending = s.pending := rfl

@[simp] theorem raiseError_ramDraw (s : Inst w) (e : ErrCode) :
    (raiseError e s).ramDraw = s.ramDraw := rfl

@[simp] theorem raiseError_tableDraws (s : Inst w) (e : ErrCode) :
    (raiseError e s).tableDraws = s.tableDraws := rfl

@[simp] theorem raiseError_resultDraw (s : Inst w) (e : ErrCode) :
    (raiseError e s).resultDraw = s.resultDraw := rfl

@[simp] theorem raiseError_prog (s : Inst w) (e : ErrCode) :
    (raiseError e s).prog = s.prog := rfl

@[simp] theorem raiseError_sched (s : Inst w) (e : ErrCode) :
    (raiseError e s).sched = s.sched := rfl

@[simp] theorem raiseError_response (s : Inst w) (e : ErrCode) :
    (raiseError e s).response = s.response := rfl

@[simp] theorem raiseError_readByte (s : Inst w) (e : ErrCode) (addr : Nat) :
    (raiseError e s).readByte addr = s.readByte addr := rfl

@[simp] theorem raiseError_readLanes (s : Inst w) (e : ErrCode) (addr n : Nat) :
    (raiseError e s).readLanes addr n = s.readLanes addr n := by
  induction n generalizing addr with
  | zero => rfl
  | succ n ih => simp [Inst.readLanes, ih]

@[simp] theorem raiseError_readKey (s : Inst w) (e : ErrCode) :
    (raiseError e s).readKey = s.readKey := rfl

@[simp] theorem raiseError_readTable (s : Inst w) (e : ErrCode) :
    (raiseError e s).readTable = s.readTable := by
  funext idx
  simp [Inst.readTable]

@[simp] theorem raiseError_keySpecified (s : Inst w) (e : ErrCode) :
    (raiseError e s).keySpecified = s.keySpecified := rfl

@[simp] theorem raiseError_tableSpecified (s : Inst w) (e : ErrCode) :
    (raiseError e s).tableSpecified = s.tableSpecified := rfl

/-! ### accept -/

@[simp] theorem accept_a (s : Inst w) (i : Instr) :
    (accept i s).a = s.a := rfl

@[simp] theorem accept_b (s : Inst w) (i : Instr) :
    (accept i s).b = s.b := rfl

@[simp] theorem accept_status (s : Inst w) (i : Instr) :
    (accept i s).status = Status.accepted := rfl

@[simp] theorem accept_keyLen (s : Inst w) (i : Instr) :
    (accept i s).keyLen = s.keyLen := rfl

@[simp] theorem accept_sLen (s : Inst w) (i : Instr) :
    (accept i s).sLen = s.sLen := rfl

@[simp] theorem accept_mem (s : Inst w) (i : Instr) :
    (accept i s).mem = s.mem := rfl

@[simp] theorem accept_lDraw (s : Inst w) (i : Instr) :
    (accept i s).lDraw = s.lDraw := rfl

@[simp] theorem accept_pending (s : Inst w) (i : Instr) :
    (accept i s).pending = some i := rfl

@[simp] theorem accept_ramDraw (s : Inst w) (i : Instr) :
    (accept i s).ramDraw = s.ramDraw := rfl

@[simp] theorem accept_tableDraws (s : Inst w) (i : Instr) :
    (accept i s).tableDraws = s.tableDraws := rfl

@[simp] theorem accept_resultDraw (s : Inst w) (i : Instr) :
    (accept i s).resultDraw = s.resultDraw := rfl

@[simp] theorem accept_prog (s : Inst w) (i : Instr) :
    (accept i s).prog = s.prog := rfl

@[simp] theorem accept_sched (s : Inst w) (i : Instr) :
    (accept i s).sched = s.sched := rfl

@[simp] theorem accept_response (s : Inst w) (i : Instr) :
    (accept i s).response = s.response := rfl

@[simp] theorem accept_readByte (s : Inst w) (i : Instr) (addr : Nat) :
    (accept i s).readByte addr = s.readByte addr := rfl

@[simp] theorem accept_readLanes (s : Inst w) (i : Instr) (addr n : Nat) :
    (accept i s).readLanes addr n = s.readLanes addr n := by
  induction n generalizing addr with
  | zero => rfl
  | succ n ih => simp [Inst.readLanes, ih]

@[simp] theorem accept_readKey (s : Inst w) (i : Instr) :
    (accept i s).readKey = s.readKey := rfl

@[simp] theorem accept_readTable (s : Inst w) (i : Instr) :
    (accept i s).readTable = s.readTable := by
  funext idx
  simp [Inst.readTable]

@[simp] theorem accept_keySpecified (s : Inst w) (i : Instr) :
    (accept i s).keySpecified = s.keySpecified := rfl

@[simp] theorem accept_tableSpecified (s : Inst w) (i : Instr) :
    (accept i s).tableSpecified = s.tableSpecified := rfl

/-! ### finish -/

@[simp] theorem finish_a (s : Inst w) :
    (finish s).a = s.a := rfl

@[simp] theorem finish_b (s : Inst w) :
    (finish s).b = s.b := rfl

@[simp] theorem finish_status (s : Inst w) :
    (finish s).status = s.status.completed := rfl

@[simp] theorem finish_keyLen (s : Inst w) :
    (finish s).keyLen = s.keyLen := rfl

@[simp] theorem finish_sLen (s : Inst w) :
    (finish s).sLen = s.sLen := rfl

@[simp] theorem finish_mem (s : Inst w) :
    (finish s).mem = s.mem := rfl

@[simp] theorem finish_lDraw (s : Inst w) :
    (finish s).lDraw = s.lDraw := rfl

@[simp] theorem finish_pending (s : Inst w) :
    (finish s).pending = none := rfl

@[simp] theorem finish_ramDraw (s : Inst w) :
    (finish s).ramDraw = s.ramDraw := rfl

@[simp] theorem finish_tableDraws (s : Inst w) :
    (finish s).tableDraws = s.tableDraws := rfl

@[simp] theorem finish_resultDraw (s : Inst w) :
    (finish s).resultDraw = s.resultDraw := rfl

@[simp] theorem finish_prog (s : Inst w) :
    (finish s).prog = s.prog := rfl

@[simp] theorem finish_sched (s : Inst w) :
    (finish s).sched = s.sched := rfl

@[simp] theorem finish_response (s : Inst w) :
    (finish s).response = s.response := rfl

@[simp] theorem finish_readByte (s : Inst w) (addr : Nat) :
    (finish s).readByte addr = s.readByte addr := rfl

@[simp] theorem finish_readLanes (s : Inst w) (addr n : Nat) :
    (finish s).readLanes addr n = s.readLanes addr n := by
  induction n generalizing addr with
  | zero => rfl
  | succ n ih => simp [Inst.readLanes, ih]

@[simp] theorem finish_readKey (s : Inst w) :
    (finish s).readKey = s.readKey := rfl

@[simp] theorem finish_readTable (s : Inst w) :
    (finish s).readTable = s.readTable := by
  funext idx
  simp [Inst.readTable]

@[simp] theorem finish_keySpecified (s : Inst w) :
    (finish s).keySpecified = s.keySpecified := rfl

@[simp] theorem finish_tableSpecified (s : Inst w) :
    (finish s).tableSpecified = s.tableSpecified := rfl

/-! ### resetStep -/

@[simp] theorem resetStep_a (s : Inst w) :
    (resetStep s).a = 0 := rfl

@[simp] theorem resetStep_b (s : Inst w) :
    (resetStep s).b = 0 := rfl

@[simp] theorem resetStep_status (s : Inst w) :
    (resetStep s).status = Status.afterReset := rfl

@[simp] theorem resetStep_keyLen (s : Inst w) :
    (resetStep s).keyLen = 0 := rfl

@[simp] theorem resetStep_sLen (s : Inst w) :
    (resetStep s).sLen = 0 := rfl

@[simp] theorem resetStep_mem (s : Inst w) :
    (resetStep s).mem = [] := rfl

@[simp] theorem resetStep_lDraw (s : Inst w) :
    (resetStep s).lDraw = s.lDraw + 1 := rfl

@[simp] theorem resetStep_pending (s : Inst w) :
    (resetStep s).pending = none := rfl

@[simp] theorem resetStep_ramDraw (s : Inst w) :
    (resetStep s).ramDraw = s.ramDraw + 1 := rfl

@[simp] theorem resetStep_tableDraws (s : Inst w) :
    (resetStep s).tableDraws = [] := rfl

@[simp] theorem resetStep_resultDraw (s : Inst w) :
    (resetStep s).resultDraw = s.resultDraw := rfl

@[simp] theorem resetStep_prog (s : Inst w) :
    (resetStep s).prog = s.prog := rfl

@[simp] theorem resetStep_sched (s : Inst w) :
    (resetStep s).sched = s.sched := rfl

@[simp] theorem resetStep_response (s : Inst w) :
    (resetStep s).response = s.response := rfl

/-! ### respond -/

@[simp] theorem respond_a (s : Inst w) (r : Response) :
    (s.respond r).a = s.a := rfl

@[simp] theorem respond_b (s : Inst w) (r : Response) :
    (s.respond r).b = s.b := rfl

@[simp] theorem respond_status (s : Inst w) (r : Response) :
    (s.respond r).status = s.status := rfl

@[simp] theorem respond_keyLen (s : Inst w) (r : Response) :
    (s.respond r).keyLen = s.keyLen := rfl

@[simp] theorem respond_sLen (s : Inst w) (r : Response) :
    (s.respond r).sLen = s.sLen := rfl

@[simp] theorem respond_mem (s : Inst w) (r : Response) :
    (s.respond r).mem = s.mem := rfl

@[simp] theorem respond_lDraw (s : Inst w) (r : Response) :
    (s.respond r).lDraw = s.lDraw := rfl

@[simp] theorem respond_pending (s : Inst w) (r : Response) :
    (s.respond r).pending = s.pending := rfl

@[simp] theorem respond_ramDraw (s : Inst w) (r : Response) :
    (s.respond r).ramDraw = s.ramDraw := rfl

@[simp] theorem respond_tableDraws (s : Inst w) (r : Response) :
    (s.respond r).tableDraws = s.tableDraws := rfl

@[simp] theorem respond_resultDraw (s : Inst w) (r : Response) :
    (s.respond r).resultDraw = s.resultDraw := rfl

@[simp] theorem respond_prog (s : Inst w) (r : Response) :
    (s.respond r).prog = s.prog := rfl

@[simp] theorem respond_sched (s : Inst w) (r : Response) :
    (s.respond r).sched = s.sched := rfl

@[simp] theorem respond_response (s : Inst w) (r : Response) :
    (s.respond r).response = some r := rfl

@[simp] theorem respond_readByte (s : Inst w) (r : Response) (addr : Nat) :
    (s.respond r).readByte addr = s.readByte addr := rfl

@[simp] theorem respond_readLanes (s : Inst w) (r : Response) (addr n : Nat) :
    (s.respond r).readLanes addr n = s.readLanes addr n := by
  induction n generalizing addr with
  | zero => rfl
  | succ n ih => simp [Inst.readLanes, ih]

@[simp] theorem respond_readKey (s : Inst w) (r : Response) :
    (s.respond r).readKey = s.readKey := rfl

@[simp] theorem respond_readTable (s : Inst w) (r : Response) :
    (s.respond r).readTable = s.readTable := by
  funext idx
  simp [Inst.readTable]

@[simp] theorem respond_keySpecified (s : Inst w) (r : Response) :
    (s.respond r).keySpecified = s.keySpecified := rfl

@[simp] theorem respond_tableSpecified (s : Inst w) (r : Response) :
    (s.respond r).tableSpecified = s.tableSpecified := rfl

/-! ### advance -/

@[simp] theorem advance_a (s : Inst w) (rest : List HostOp) :
    (s.advance rest).a = s.a := rfl

@[simp] theorem advance_b (s : Inst w) (rest : List HostOp) :
    (s.advance rest).b = s.b := rfl

@[simp] theorem advance_status (s : Inst w) (rest : List HostOp) :
    (s.advance rest).status = s.status := rfl

@[simp] theorem advance_keyLen (s : Inst w) (rest : List HostOp) :
    (s.advance rest).keyLen = s.keyLen := rfl

@[simp] theorem advance_sLen (s : Inst w) (rest : List HostOp) :
    (s.advance rest).sLen = s.sLen := rfl

@[simp] theorem advance_mem (s : Inst w) (rest : List HostOp) :
    (s.advance rest).mem = s.mem := rfl

@[simp] theorem advance_lDraw (s : Inst w) (rest : List HostOp) :
    (s.advance rest).lDraw = s.lDraw := rfl

@[simp] theorem advance_pending (s : Inst w) (rest : List HostOp) :
    (s.advance rest).pending = s.pending := rfl

@[simp] theorem advance_ramDraw (s : Inst w) (rest : List HostOp) :
    (s.advance rest).ramDraw = s.ramDraw := rfl

@[simp] theorem advance_tableDraws (s : Inst w) (rest : List HostOp) :
    (s.advance rest).tableDraws = s.tableDraws := rfl

@[simp] theorem advance_resultDraw (s : Inst w) (rest : List HostOp) :
    (s.advance rest).resultDraw = s.resultDraw := rfl

@[simp] theorem advance_prog (s : Inst w) (rest : List HostOp) :
    (s.advance rest).prog = rest := rfl

@[simp] theorem advance_sched (s : Inst w) (rest : List HostOp) :
    (s.advance rest).sched = s.sched := rfl

@[simp] theorem advance_response (s : Inst w) (rest : List HostOp) :
    (s.advance rest).response = s.response := rfl

@[simp] theorem advance_readByte (s : Inst w) (rest : List HostOp) (addr : Nat) :
    (s.advance rest).readByte addr = s.readByte addr := rfl

@[simp] theorem advance_readLanes (s : Inst w) (rest : List HostOp) (addr n : Nat) :
    (s.advance rest).readLanes addr n = s.readLanes addr n := by
  induction n generalizing addr with
  | zero => rfl
  | succ n ih => simp [Inst.readLanes, ih]

@[simp] theorem advance_readKey (s : Inst w) (rest : List HostOp) :
    (s.advance rest).readKey = s.readKey := rfl

@[simp] theorem advance_readTable (s : Inst w) (rest : List HostOp) :
    (s.advance rest).readTable = s.readTable := by
  funext idx
  simp [Inst.readTable]

@[simp] theorem advance_keySpecified (s : Inst w) (rest : List HostOp) :
    (s.advance rest).keySpecified = s.keySpecified := rfl

@[simp] theorem advance_tableSpecified (s : Inst w) (rest : List HostOp) :
    (s.advance rest).tableSpecified = s.tableSpecified := rfl

/-! ### reschedule -/

@[simp] theorem reschedule_a (s : Inst w) (later : List Agent) :
    (s.reschedule later).a = s.a := rfl

@[simp] theorem reschedule_b (s : Inst w) (later : List Agent) :
    (s.reschedule later).b = s.b := rfl

@[simp] theorem reschedule_status (s : Inst w) (later : List Agent) :
    (s.reschedule later).status = s.status := rfl

@[simp] theorem reschedule_keyLen (s : Inst w) (later : List Agent) :
    (s.reschedule later).keyLen = s.keyLen := rfl

@[simp] theorem reschedule_sLen (s : Inst w) (later : List Agent) :
    (s.reschedule later).sLen = s.sLen := rfl

@[simp] theorem reschedule_mem (s : Inst w) (later : List Agent) :
    (s.reschedule later).mem = s.mem := rfl

@[simp] theorem reschedule_lDraw (s : Inst w) (later : List Agent) :
    (s.reschedule later).lDraw = s.lDraw := rfl

@[simp] theorem reschedule_pending (s : Inst w) (later : List Agent) :
    (s.reschedule later).pending = s.pending := rfl

@[simp] theorem reschedule_ramDraw (s : Inst w) (later : List Agent) :
    (s.reschedule later).ramDraw = s.ramDraw := rfl

@[simp] theorem reschedule_tableDraws (s : Inst w) (later : List Agent) :
    (s.reschedule later).tableDraws = s.tableDraws := rfl

@[simp] theorem reschedule_resultDraw (s : Inst w) (later : List Agent) :
    (s.reschedule later).resultDraw = s.resultDraw := rfl

@[simp] theorem reschedule_prog (s : Inst w) (later : List Agent) :
    (s.reschedule later).prog = s.prog := rfl

@[simp] theorem reschedule_sched (s : Inst w) (later : List Agent) :
    (s.reschedule later).sched = later := rfl

@[simp] theorem reschedule_response (s : Inst w) (later : List Agent) :
    (s.reschedule later).response = s.response := rfl

@[simp] theorem reschedule_readByte (s : Inst w) (later : List Agent) (addr : Nat) :
    (s.reschedule later).readByte addr = s.readByte addr := rfl

@[simp] theorem reschedule_readLanes (s : Inst w) (later : List Agent) (addr n : Nat) :
    (s.reschedule later).readLanes addr n = s.readLanes addr n := by
  induction n generalizing addr with
  | zero => rfl
  | succ n ih => simp [Inst.readLanes, ih]

@[simp] theorem reschedule_readKey (s : Inst w) (later : List Agent) :
    (s.reschedule later).readKey = s.readKey := rfl

@[simp] theorem reschedule_readTable (s : Inst w) (later : List Agent) :
    (s.reschedule later).readTable = s.readTable := by
  funext idx
  simp [Inst.readTable]

@[simp] theorem reschedule_keySpecified (s : Inst w) (later : List Agent) :
    (s.reschedule later).keySpecified = s.keySpecified := rfl

@[simp] theorem reschedule_tableSpecified (s : Inst w) (later : List Agent) :
    (s.reschedule later).tableSpecified = s.tableSpecified := rfl

end Sys2Proof.Machine
end

