-- ==== Sys2Proof/Laws/Memory.lean ====
section
/-! SUPPORT. The specified bytes of K and S: read after write, canonical form, words in byte lanes, tables of words,
unspecified tables. -/

namespace Sys2Proof.Machine

open Sys2Proof

variable {w : Width}

/-! ### One byte -/

theorem Memory.read_write_same (m : Memory) (a : Nat) (v : Byte) : (m.write a v).read a = some v := by
  induction m with
  | nil => simp [Memory.write, Memory.read]
  | cons c m ih =>
    obtain ⟨b, x⟩ := c
    simp only [Memory.write]
    split
    · simp [Memory.read]
    · split
      · simp [Memory.read]
      · simp [Memory.read, *]

theorem Memory.read_write_other (m : Memory) {a b : Nat} (v : Byte) (h : b ≠ a) :
    (m.write a v).read b = m.read b := by
  induction m with
  | nil => simp [Memory.write, Memory.read, h]
  | cons c m ih =>
    obtain ⟨k, x⟩ := c
    simp only [Memory.write]
    split
    · subst a; simp [Memory.read, h]
    · split
      · simp [Memory.read, h]
      · simp [Memory.read, ih]

theorem Memory.rising_mono {lo lo' : Nat} (h : lo' ≤ lo) {m : Memory} (hm : m.rising lo = true) :
    m.rising lo' = true := by
  cases m with
  | nil => rfl
  | cons c m =>
    simp only [Memory.rising, Bool.and_eq_true, decide_eq_true_eq] at hm ⊢
    exact ⟨by omega, hm.2⟩

theorem Memory.rising_write {lo a : Nat} (v : Byte) (ha : lo ≤ a) {m : Memory} (hm : m.rising lo = true) :
    (m.write a v).rising lo = true := by
  induction m generalizing lo with
  | nil => simp [Memory.write, Memory.rising, ha]
  | cons c m ih =>
    obtain ⟨b, x⟩ := c
    simp only [Memory.rising, Bool.and_eq_true, decide_eq_true_eq] at hm
    simp only [Memory.write]
    split
    · subst a; simp [Memory.rising, hm]
    · split
      · simp only [Memory.rising, Bool.and_eq_true, decide_eq_true_eq]
        exact ⟨ha, by omega, hm.2⟩
      · simp only [Memory.rising, Bool.and_eq_true, decide_eq_true_eq]
        exact ⟨hm.1, ih (by omega) hm.2⟩

theorem Memory.all_write {p : Host.Cell → Bool} {a : Nat} {v : Byte} (ha : p (a, v) = true) {m : Memory}
    (hm : m.all p = true) : (m.write a v).all p = true := by
  induction m with
  | nil => simp [Memory.write, ha]
  | cons c m ih =>
    obtain ⟨b, x⟩ := c
    simp only [List.all_cons, Bool.and_eq_true] at hm
    simp only [Memory.write]
    split
    · simp only [List.all_cons, Bool.and_eq_true]; exact ⟨ha, hm.2⟩
    · split
      · simp only [List.all_cons, Bool.and_eq_true]; exact ⟨ha, hm⟩
      · simp only [List.all_cons, Bool.and_eq_true]; exact ⟨hm.1, ih hm.2⟩

/-- A write of a byte of K or S keeps the canonical form. -/
theorem Memory.wf_write {w : Width} {a : Nat} (v : Byte) (ha : isRamByte w a = true) {m : Memory}
    (hm : m.wf w = true) : (m.write a v).wf w = true := by
  simp only [Memory.wf, Bool.and_eq_true] at hm ⊢
  exact ⟨Memory.rising_write v (Nat.zero_le a) hm.1, Memory.all_write (p := fun c => isRamByte w c.1) ha hm.2⟩

theorem Memory.wf_nil (w : Width) : Memory.wf w [] = true := rfl

/-! ### Byte lanes -/

theorem Memory.wf_writeLanes {w : Width} {m : Memory} {a n : Nat} (v : Nat)
    (ha : ∀ k, k < n → isRamByte w (a + k) = true) (hm : m.wf w = true) :
    (m.writeLanes a n v).wf w = true := by
  induction n generalizing a v with
  | zero => exact hm
  | succ n ih =>
    refine Memory.wf_write _ (ha 0 (by omega)) (ih _ (fun k hk => ?_))
    have := ha (k + 1) (by omega)
    rwa [show a + 1 + k = a + (k + 1) by omega]

theorem Memory.read_writeLanes_other {m : Memory} {a n b : Nat} (v : Nat) (h : b < a ∨ a + n ≤ b) :
    (m.writeLanes a n v).read b = m.read b := by
  induction n generalizing a v with
  | zero => rfl
  | succ n ih =>
    simp only [Memory.writeLanes]
    rw [Memory.read_write_other _ _ (by omega), ih _ (by omega)]

theorem Memory.read_writeLanes_same {m : Memory} {a n k : Nat} (v : Nat) (h : k < n) :
    (m.writeLanes a n v).read (a + k) = some (BitVec.ofNat 8 (v / 256 ^ k)) := by
  induction n generalizing a v k with
  | zero => omega
  | succ n ih =>
    simp only [Memory.writeLanes]
    cases k with
    | zero => simp [Memory.read_write_same]
    | succ k =>
      rw [Memory.read_write_other _ _ (by omega), show a + (k + 1) = a + 1 + k by omega, ih _ (by omega),
        Nat.div_div_eq_div_mul, Nat.pow_succ, Nat.mul_comm]

/-- Reading lanes looks only at the bytes of those lanes. -/
theorem Inst.readLanes_congr {s t : Inst w} {a n : Nat} (h : ∀ k, k < n → t.readByte (a + k) = s.readByte (a + k)) :
    t.readLanes a n = s.readLanes a n := by
  induction n generalizing a with
  | zero => rfl
  | succ n ih =>
    have h0 := h 0 (by omega)
    simp only [Nat.add_zero] at h0
    simp only [Inst.readLanes, h0]
    rw [ih]
    intro k hk
    have := h (k + 1) (by omega)
    rwa [show a + 1 + k = a + (k + 1) by omega]

/-- Lanes that hold the bytes of an integer read as that integer. -/
theorem Inst.readLanes_of_bytes {s : Inst w} {a n : Nat} {v : Nat}
    (h : ∀ k, k < n → s.readByte (a + k) = BitVec.ofNat 8 (v / 256 ^ k)) :
    s.readLanes a n = v % 256 ^ n := by
  induction n generalizing a v with
  | zero => simp [Inst.readLanes, Nat.mod_one]
  | succ n ih =>
    have h0 := h 0 (by omega)
    simp only [Nat.add_zero, Nat.pow_zero, Nat.div_one] at h0
    simp only [Inst.readLanes, h0]
    rw [ih (v := v / 256)]
    · simp only [BitVec.toNat_ofNat, Nat.reducePow]
      rw [Nat.pow_succ, Nat.mul_comm (256 ^ n) 256, Nat.mod_mul]
    · intro k hk
      have := h (k + 1) (by omega)
      rw [show a + 1 + k = a + (k + 1) by omega, this, Nat.div_div_eq_div_mul, Nat.pow_succ, Nat.mul_comm 256]

theorem Inst.readByte_of_read {s : Inst w} {a : Nat} {v : Byte} (h : s.mem.read a = some v) : s.readByte a = v := by
  simp [Inst.readByte, h]

/-! ### Words of the table -/

theorem pow_bytes (w : Width) : 256 ^ w.bytes = 2 ^ w.bits := by cases w <;> rfl

theorem isRamByte_table {w : Width} {i k : Nat} (hi : i < 512) (hk : k < w.bytes) :
    isRamByte w (tableAddr i + k) = true := by
  have := w.bytes_le
  have hk8 := w.bytes_le
  have h : ∀ a, a = tableAddr i + k → isRamByte w a = true := fun a ha => by
    simp only [tableAddr] at ha
    simp [isRamByte]
    omega
  exact h _ rfl

theorem isRamByte_key {w : Width} {k : Nat} (hk : k < 255) : isRamByte w (keyAddr k) = true := by
  have h : ∀ a, a = keyAddr k → isRamByte w a = true := fun a ha => by
    simp only [keyAddr] at ha
    simp [isRamByte]
    omega
  exact h _ rfl

theorem Memory.wf_writeTable {w : Width} {m : Memory} {i : Nat} {xs : List (Word w)} (h : i + xs.length ≤ 512)
    (hm : m.wf w = true) : (m.writeTable i xs).wf w = true := by
  induction xs generalizing i with
  | nil => exact hm
  | cons x xs ih =>
    simp only [List.length_cons] at h
    exact Memory.wf_writeLanes _ (fun k hk => isRamByte_table (by omega) hk) (ih (by omega))

/-- A byte outside the lanes of the words written reads as before. -/
theorem Memory.read_writeTable_other {w : Width} {m : Memory} {i b : Nat} {xs : List (Word w)}
    (h : ∀ j, j < xs.length → b < tableAddr (i + j) ∨ tableAddr (i + j) + w.bytes ≤ b) :
    (m.writeTable i xs).read b = m.read b := by
  induction xs generalizing i with
  | nil => rfl
  | cons x xs ih =>
    simp only [Memory.writeTable]
    have h0 := h 0 (by simp)
    rw [Memory.read_writeLanes_other _ (by simpa using h0)]
    refine ih (fun j hj => ?_)
    have := h (j + 1) (by simpa using hj)
    rwa [show i + 1 + j = i + (j + 1) by omega]

theorem Memory.read_writeTable_same {w : Width} {m : Memory} {i j k : Nat} {xs : List (Word w)}
    (hj : j < xs.length) (hk : k < w.bytes) :
    (m.writeTable i xs).read (tableAddr (i + j) + k) =
      some (BitVec.ofNat 8 (xs[j].toNat / 256 ^ k)) := by
  induction xs generalizing i j with
  | nil => simp at hj
  | cons x xs ih =>
    simp only [Memory.writeTable]
    cases j with
    | zero => simpa using Memory.read_writeLanes_same _ hk
    | succ j =>
      have hw := w.bytes_le
      rw [Memory.read_writeLanes_other _ (by simp only [tableAddr]; omega),
        show i + (j + 1) = i + 1 + j by omega, ih (by simpa using hj)]
      simp

/-- A word written reads back (10_state.md R34). -/
theorem Inst.readTable_writeTable_same (s : Inst w) {i j : Nat} {xs : List (Word w)} (hj : j < xs.length) :
    (s.writeTable i xs).readTable (i + j) = xs[j] := by
  have h : (s.writeTable i xs).readLanes (tableAddr (i + j)) w.bytes = xs[j].toNat % 256 ^ w.bytes :=
    Inst.readLanes_of_bytes fun k hk => Inst.readByte_of_read (Memory.read_writeTable_same hj hk)
  simp only [Inst.readTable, h, pow_bytes]
  simp

/-- A byte outside the lanes of the words written reads as before. -/
theorem Inst.readByte_writeTable_other (s : Inst w) {i b : Nat} {xs : List (Word w)}
    (h : ∀ j, j < xs.length → b < tableAddr (i + j) ∨ tableAddr (i + j) + w.bytes ≤ b) :
    (s.writeTable i xs).readByte b = s.readByte b := by
  simp only [Inst.readByte, Inst.redraws, writeTable_mem, writeTable_ramDraw, writeTable_tableDraws,
     Memory.read_writeTable_other h]

/-- A word that is not among those written reads as before. -/
theorem Inst.readTable_writeTable_other (s : Inst w) {i j : Nat} {xs : List (Word w)}
    (h : j < i ∨ i + xs.length ≤ j) : (s.writeTable i xs).readTable j = s.readTable j := by
  have hw := w.bytes_le
  have hl : (s.writeTable i xs).readLanes (tableAddr j) w.bytes = s.readLanes (tableAddr j) w.bytes :=
    Inst.readLanes_congr fun k hk => s.readByte_writeTable_other fun n hn => by
      simp only [tableAddr]; omega
  simp only [Inst.readTable, hl]

/-- Writing S leaves K alone. -/
theorem Inst.readKey_writeTable (s : Inst w) {i k : Nat} {xs : List (Word w)} (hk : k < 255) :
    (s.writeTable i xs).readKey k = s.readKey k :=
  s.readByte_writeTable_other fun n hn => by simp only [tableAddr, keyAddr]; omega

/-! ### Bytes of the key -/

/-- A key byte written reads back (10_state.md R33). -/
theorem Inst.readKey_writeKey_same (s : Inst w) (k : Nat) (v : Byte) : (s.writeKey k v).readKey k = v :=
  Inst.readByte_of_read (Memory.read_write_same _ _ _)

theorem Inst.readByte_writeKey_other (s : Inst w) {k b : Nat} (v : Byte) (h : b ≠ keyAddr k) :
    (s.writeKey k v).readByte b = s.readByte b := by
  simp only [Inst.readByte, Inst.redraws, writeKey_mem, writeKey_ramDraw, writeKey_tableDraws,
     Memory.read_write_other _ _ h]

theorem Inst.readKey_writeKey_other (s : Inst w) {k j : Nat} (v : Byte) (h : j ≠ k) :
    (s.writeKey k v).readKey j = s.readKey j :=
  s.readByte_writeKey_other v (by simp only [keyAddr]; omega)

/-- Writing K leaves S alone. -/
theorem Inst.readTable_writeKey (s : Inst w) {k i : Nat} (v : Byte) (hk : k < 255) :
    (s.writeKey k v).readTable i = s.readTable i := by
  have hl : (s.writeKey k v).readLanes (tableAddr i) w.bytes = s.readLanes (tableAddr i) w.bytes :=
    Inst.readLanes_congr fun n hn => s.readByte_writeKey_other v (by simp only [tableAddr, keyAddr]; omega)
  simp only [Inst.readTable, hl]

/-! ### An unspecified table -/

theorem Memory.rising_filter {lo : Nat} (p : Host.Cell → Bool) {m : Memory} (hm : m.rising lo = true) :
    Memory.rising lo (m.filter p) = true := by
  induction m generalizing lo with
  | nil => rfl
  | cons c m ih =>
    obtain ⟨b, x⟩ := c
    simp only [Memory.rising, Bool.and_eq_true, decide_eq_true_eq] at hm
    simp only [List.filter_cons]
    split
    · simp only [Memory.rising, Bool.and_eq_true, decide_eq_true_eq]
      exact ⟨hm.1, ih hm.2⟩
    · exact Memory.rising_mono (by omega) (ih hm.2)

/-- Dropping a table keeps the canonical form. -/
theorem Memory.wf_dropTable {w : Width} {m : Memory} (n : Nat) (hm : m.wf w = true) :
    (m.dropTable w n).wf w = true := by
  simp only [Memory.wf, Bool.and_eq_true] at hm ⊢
  refine ⟨Memory.rising_filter _ hm.1, ?_⟩
  simp only [List.all_eq_true, Memory.dropTable, List.mem_filter] at hm ⊢
  exact fun c hc => hm.2 c hc.1

/-- A byte outside the dropped table reads as before, and none of it stays listed. -/
theorem Memory.read_dropTable (w : Width) (m : Memory) (n a : Nat) :
    (m.dropTable w n).read a = if inTable w n a then none else m.read a := by
  induction m with
  | nil => simp [Memory.dropTable, Memory.read]
  | cons c m ih =>
    obtain ⟨b, x⟩ := c
    simp only [Memory.dropTable, List.filter_cons] at ih ⊢
    by_cases hab : a = b
    · subst hab
      cases h : inTable w n a <;> simp [h, Memory.read, ih]
    · cases h : inTable w n b <;> simp [Memory.read, ih, hab]

/-- A byte outside an unspecified table reads as before. -/
theorem Inst.readByte_drawTable_other (s : Inst w) {n a : Nat} (h : inTable w n a = false) :
    (s.drawTable n).readByte a = s.readByte a := by
  simp only [Inst.readByte, Inst.redraws, drawTable_mem, drawTable_ramDraw, drawTable_tableDraws,
    Memory.read_dropTable, h, List.countP_cons]
  simp

/-- K is outside every table. -/
theorem inTable_keyAddr {n k : Nat} (hk : k < 255) : inTable w n (keyAddr k) = false := by
  simp [inTable, keyAddr, tableAddr]
  omega

/-- Leaving S unspecified leaves K alone. -/
theorem Inst.readKey_drawTable (s : Inst w) {n k : Nat} (hk : k < 255) :
    (s.drawTable n).readKey k = s.readKey k :=
  s.readByte_drawTable_other (inTable_keyAddr hk)

/-- A word outside an unspecified table reads as before. -/
theorem Inst.readTable_drawTable_other (s : Inst w) {n i : Nat} (h : n ≤ i) :
    (s.drawTable n).readTable i = s.readTable i := by
  have hl : (s.drawTable n).readLanes (tableAddr i) w.bytes = s.readLanes (tableAddr i) w.bytes :=
    Inst.readLanes_congr fun k hk => s.readByte_drawTable_other (by simp [inTable, tableAddr]; omega)
  simp only [Inst.readTable, hl]

/-! ### What is specified -/

theorem Inst.keySpecified_iff {s : Inst w} :
    s.keySpecified = true ↔ ∀ k, k < s.keyLen.toNat → s.mem.read (keyAddr k) ≠ none := by
  simp [Inst.keySpecified, Option.isSome_iff_ne_none]

theorem Inst.keySpecified_eq_false {s : Inst w} :
    s.keySpecified = false ↔ ∃ k, k < s.keyLen.toNat ∧ s.mem.read (keyAddr k) = none := by
  rw [← Bool.not_eq_true, Inst.keySpecified_iff]
  push Not
  rfl

theorem Inst.tableSpecified_iff {s : Inst w} {r : Nat} :
    s.tableSpecified r = true ↔
      ∀ i, i < 2 * (r + 1) → ∀ m, m < w.bytes → s.mem.read (tableAddr i + m) ≠ none := by
  simp [Inst.tableSpecified, Inst.wordSpecified, Option.isSome_iff_ne_none]

theorem Inst.tableSpecified_eq_false {s : Inst w} {r : Nat} :
    s.tableSpecified r = false ↔
      ∃ i, i < 2 * (r + 1) ∧ ∃ m, m < w.bytes ∧ s.mem.read (tableAddr i + m) = none := by
  rw [← Bool.not_eq_true, Inst.tableSpecified_iff]
  push Not
  rfl

/-- The byte addresses of S[i] are in the tables that have it. -/
theorem inTable_tableAddr {n i m : Nat} (hm : m < w.bytes) : inTable w n (tableAddr i + m) = decide (i < n) := by
  have hw := w.bytes_le
  refine decide_eq_decide.2 ?_
  simp only [tableAddr]
  omega

/-- A byte of an unspecified table is a new free value. -/
theorem Inst.readByte_drawTable_same (s : Inst w) {n a : Nat} (h : inTable w n a = true) :
    (s.drawTable n).mem.read a = none ∧
      (s.drawTable n).readByte a = Config.ramByte s.ramDraw (s.redraws a + 1) a := by
  simp [Inst.readByte, Inst.redraws, Memory.read_dropTable, h]

end Sys2Proof.Machine
end

