-- ==== Sys2Proof/Laws/Commands.lean ====
section
/-! SUPPORT. What a command can do: its three outcomes, and what its effect leaves alone. -/

namespace Sys2Proof.Machine

open Sys2Proof

variable {w : Width}

/-- The effect of a command at completion. -/
def effectOf (i : Instr) (s : Inst w) : Inst w :=
  match i with
  | .expandKey r => expandKeyEffect r s
  | .encrypt r => encryptEffect r s
  | .decrypt r => decryptEffect r s
  | .rotl _ => rotlEffect s
  | .rotr _ => rotrEffect s

/-- Every meaning is the shared operation over its own check and effect. -/
theorem exec_eq_command (i : Instr) (s : Inst w) :
    exec i ⟨w, s⟩ = State.lift (command i (commandCheck i s) (effectOf i) s) := by
  cases i <;> rfl

@[simp] theorem lift_next (s : Inst w) : State.lift (.next s) = .next ⟨w, s⟩ := rfl

theorem lift_eq_next {o : Host.Outcome (Inst w) Fault Refusal} {t : State} (h : State.lift o = .next t) :
    ∃ t', o = .next t' ∧ t = ⟨w, t'⟩ := by
  cases o with
  | next s => exact ⟨s, rfl, by cases h; rfl⟩
  | fault e => cases h
  | refused r => cases h

/-- Everything a command can do when it answers a next state. -/
theorem command_cases {i : Instr} {check : Option ErrCode} {effect : Inst w → Inst w} {s t : Inst w}
    (h : command i check effect s = .next t) :
    (s.pending = none ∧ check = none ∧ t = accept i s) ∨
    (∃ e, s.pending = none ∧ check = some e ∧ t = raiseError e s) ∨
    (s.pending = some i ∧ t = finish (effect s)) := by
  unfold command at h
  split at h
  · split at h
    · cases h; exact .inl ⟨‹_›, rfl, rfl⟩
    · cases h; exact .inr (.inl ⟨_, ‹_›, rfl, rfl⟩)
  · split at h
    · rename_i hj; subst hj; cases h; exact .inr (.inr ⟨‹_›, rfl⟩)
    · cases h

/-- Everything `exec` can do when it answers a next state. -/
theorem exec_cases {i : Instr} {s : Inst w} {t : State} (h : exec i ⟨w, s⟩ = .next t) :
    (s.pending = none ∧ commandCheck i s = none ∧ t = ⟨w, accept i s⟩) ∨
    (∃ e, s.pending = none ∧ commandCheck i s = some e ∧ t = ⟨w, raiseError e s⟩) ∨
    (s.pending = some i ∧ t = ⟨w, finish (effectOf i s)⟩) := by
  rw [exec_eq_command] at h
  obtain ⟨t', h', rfl⟩ := lift_eq_next h
  rcases command_cases h' with ⟨hp, hc, rfl⟩ | ⟨e, hp, hc, rfl⟩ | ⟨hp, rfl⟩
  · exact .inl ⟨hp, hc, rfl⟩
  · exact .inr (.inl ⟨e, hp, hc, rfl⟩)
  · exact .inr (.inr ⟨hp, rfl⟩)

theorem exec_accepts {i : Instr} {s : Inst w} (hp : s.pending = none) (hc : commandCheck i s = none) :
    exec i ⟨w, s⟩ = .next ⟨w, accept i s⟩ := by
  rw [exec_eq_command]; simp [command, hp, hc]

theorem exec_raises {i : Instr} {s : Inst w} {e : ErrCode} (hp : s.pending = none)
    (hc : commandCheck i s = some e) : exec i ⟨w, s⟩ = .next ⟨w, raiseError e s⟩ := by
  rw [exec_eq_command]; simp [command, hp, hc]

theorem exec_completes {i : Instr} {s : Inst w} (hp : s.pending = some i) :
    exec i ⟨w, s⟩ = .next ⟨w, finish (effectOf i s)⟩ := by
  rw [exec_eq_command]; simp [command, hp]

/-! ### What an effect does -/

/-- Everything EXPAND_KEY's effect can do (42_key_schedule.md R149, 70_reset_and_hazards.md R235). -/
theorem expandKeyEffect_cases (r : Nat) (s : Inst w) :
    (s.keySpecified = true ∧ expandKeyEffect r s = (s.writeExpandedKey r).drawBuffer) ∨
    (s.keySpecified = false ∧ expandKeyEffect r s = (s.drawTable (tableLength r)).drawBuffer) := by
  unfold expandKeyEffect
  cases h : s.keySpecified
  · exact .inr ⟨rfl, rfl⟩
  · exact .inl ⟨rfl, rfl⟩

/-- Everything a block command's effect can do (43_block_transforms.md R176, R177, 70_reset_and_hazards.md R235). -/
theorem blockEffect_cases (r : Nat) (result : Word w × Word w) (s : Inst w) :
    (s.tableSpecified r = true ∧ blockEffect r result s = s.writeBlock result) ∨
    (s.tableSpecified r = false ∧ blockEffect r result s = s.drawBlock) := by
  unfold blockEffect
  cases h : s.tableSpecified r
  · exact .inr ⟨rfl, rfl⟩
  · exact .inl ⟨rfl, rfl⟩

/-- Everything an effect can do: its rule's result where all it reads is specified, free values where not. -/
theorem effectOf_cases (i : Instr) (s : Inst w) :
    (∃ r, i = .expandKey r ∧ s.keySpecified = true ∧ effectOf i s = (s.writeExpandedKey r).drawBuffer) ∨
    (∃ r, i = .expandKey r ∧ s.keySpecified = false ∧ effectOf i s = (s.drawTable (tableLength r)).drawBuffer) ∨
    (∃ r, (i = .encrypt r ∨ i = .decrypt r) ∧ s.tableSpecified r = false ∧ effectOf i s = s.drawBlock) ∨
    (∃ r, i = .encrypt r ∧ s.tableSpecified r = true ∧
      effectOf i s = s.writeBlock (enc s.readTable r (s.a, s.b))) ∨
    (∃ r, i = .decrypt r ∧ s.tableSpecified r = true ∧
      effectOf i s = s.writeBlock (dec s.readTable r (s.a, s.b))) ∨
    (∃ r, i = .rotl r ∧ effectOf i s = rotlEffect s) ∨
    (∃ r, i = .rotr r ∧ effectOf i s = rotrEffect s) := by
  cases i with
  | expandKey r =>
    rcases expandKeyEffect_cases r s with ⟨h, e⟩ | ⟨h, e⟩
    · exact .inl ⟨r, rfl, h, e⟩
    · exact .inr (.inl ⟨r, rfl, h, e⟩)
  | encrypt r =>
    rcases blockEffect_cases r (enc s.readTable r (s.a, s.b)) s with ⟨h, e⟩ | ⟨h, e⟩
    · exact .inr (.inr (.inr (.inl ⟨r, rfl, h, e⟩)))
    · exact .inr (.inr (.inl ⟨r, .inl rfl, h, e⟩))
  | decrypt r =>
    rcases blockEffect_cases r (dec s.readTable r (s.a, s.b)) s with ⟨h, e⟩ | ⟨h, e⟩
    · exact .inr (.inr (.inr (.inr (.inl ⟨r, rfl, h, e⟩))))
    · exact .inr (.inr (.inl ⟨r, .inr rfl, h, e⟩))
  | rotl r => exact .inr (.inr (.inr (.inr (.inr (.inl ⟨r, rfl, rfl⟩)))))
  | rotr r => exact .inr (.inr (.inr (.inr (.inr (.inr ⟨r, rfl, rfl⟩)))))

/-! ### What an effect leaves alone -/

@[simp] theorem effectOf_status (i : Instr) (s : Inst w) : (effectOf i s).status = s.status := by
  rcases effectOf_cases i s with ⟨_, _, _, e⟩ | ⟨_, _, _, e⟩ | ⟨_, _, _, e⟩ | ⟨_, _, _, e⟩ | ⟨_, _, _, e⟩ | ⟨_, _, e⟩ |
    ⟨_, _, e⟩ <;> rw [e] <;> rfl

@[simp] theorem effectOf_keyLen (i : Instr) (s : Inst w) : (effectOf i s).keyLen = s.keyLen := by
  rcases effectOf_cases i s with ⟨_, _, _, e⟩ | ⟨_, _, _, e⟩ | ⟨_, _, _, e⟩ | ⟨_, _, _, e⟩ | ⟨_, _, _, e⟩ | ⟨_, _, e⟩ |
    ⟨_, _, e⟩ <;> rw [e] <;> rfl

@[simp] theorem effectOf_pending (i : Instr) (s : Inst w) : (effectOf i s).pending = s.pending := by
  rcases effectOf_cases i s with ⟨_, _, _, e⟩ | ⟨_, _, _, e⟩ | ⟨_, _, _, e⟩ | ⟨_, _, _, e⟩ | ⟨_, _, _, e⟩ | ⟨_, _, e⟩ |
    ⟨_, _, e⟩ <;> rw [e] <;> rfl

@[simp] theorem effectOf_ramDraw (i : Instr) (s : Inst w) : (effectOf i s).ramDraw = s.ramDraw := by
  rcases effectOf_cases i s with ⟨_, _, _, e⟩ | ⟨_, _, _, e⟩ | ⟨_, _, _, e⟩ | ⟨_, _, _, e⟩ | ⟨_, _, _, e⟩ | ⟨_, _, e⟩ |
    ⟨_, _, e⟩ <;> rw [e] <;> rfl

@[simp] theorem effectOf_prog (i : Instr) (s : Inst w) : (effectOf i s).prog = s.prog := by
  rcases effectOf_cases i s with ⟨_, _, _, e⟩ | ⟨_, _, _, e⟩ | ⟨_, _, _, e⟩ | ⟨_, _, _, e⟩ | ⟨_, _, _, e⟩ | ⟨_, _, e⟩ |
    ⟨_, _, e⟩ <;> rw [e] <;> rfl

@[simp] theorem effectOf_sched (i : Instr) (s : Inst w) : (effectOf i s).sched = s.sched := by
  rcases effectOf_cases i s with ⟨_, _, _, e⟩ | ⟨_, _, _, e⟩ | ⟨_, _, _, e⟩ | ⟨_, _, _, e⟩ | ⟨_, _, _, e⟩ | ⟨_, _, e⟩ |
    ⟨_, _, e⟩ <;> rw [e] <;> rfl

@[simp] theorem effectOf_response (i : Instr) (s : Inst w) : (effectOf i s).response = s.response := by
  rcases effectOf_cases i s with ⟨_, _, _, e⟩ | ⟨_, _, _, e⟩ | ⟨_, _, _, e⟩ | ⟨_, _, _, e⟩ | ⟨_, _, _, e⟩ | ⟨_, _, e⟩ |
    ⟨_, _, e⟩ <;> rw [e] <;> rfl

/-- The memory after an effect: EXPAND_KEY's table written or unspecified, and for the others the memory before. -/
theorem effectOf_mem (i : Instr) (s : Inst w) :
    (effectOf i s).mem =
      match i with
      | .expandKey r =>
        if s.keySpecified then s.mem.writeTable 0 (expandedTable w s.readKey s.keyLen.toNat r)
        else s.mem.dropTable w (tableLength r)
      | .encrypt _ => s.mem
      | .decrypt _ => s.mem
      | .rotl _ => s.mem
      | .rotr _ => s.mem := by
  cases i with
  | expandKey r => rcases expandKeyEffect_cases r s with ⟨h, e⟩ | ⟨h, e⟩ <;> simp [effectOf, e, h]
  | encrypt r => rcases blockEffect_cases r (enc s.readTable r (s.a, s.b)) s with ⟨_, e⟩ | ⟨_, e⟩ <;>
      simp [effectOf, encryptEffect, e]
  | decrypt r => rcases blockEffect_cases r (dec s.readTable r (s.a, s.b)) s with ⟨_, e⟩ | ⟨_, e⟩ <;>
      simp [effectOf, decryptEffect, e]
  | rotl r => rfl
  | rotr r => rfl

/-- S_LEN after an effect: EXPAND_KEY's table length, a legal free value with an unspecified key, and for the others
as before. -/
theorem effectOf_sLen (i : Instr) (s : Inst w) :
    (effectOf i s).sLen =
      match i with
      | .expandKey r =>
        if s.keySpecified then BitVec.ofNat 10 (tableLength r)
        else BitVec.ofNat 10 (Config.resultLength s.resultDraw).val
      | .encrypt _ => s.sLen
      | .decrypt _ => s.sLen
      | .rotl _ => s.sLen
      | .rotr _ => s.sLen := by
  cases i with
  | expandKey r => rcases expandKeyEffect_cases r s with ⟨h, e⟩ | ⟨h, e⟩ <;> simp [effectOf, e, h]
  | encrypt r => rcases blockEffect_cases r (enc s.readTable r (s.a, s.b)) s with ⟨_, e⟩ | ⟨_, e⟩ <;>
      simp [effectOf, encryptEffect, e]
  | decrypt r => rcases blockEffect_cases r (dec s.readTable r (s.a, s.b)) s with ⟨_, e⟩ | ⟨_, e⟩ <;>
      simp [effectOf, decryptEffect, e]
  | rotl r => rfl
  | rotr r => rfl

/-- An effect that is not EXPAND_KEY's leaves every byte of K and S alone. -/
theorem effectOf_readByte {i : Instr} (s : Inst w) (h : ∀ r, i ≠ .expandKey r) (addr : Nat) :
    (effectOf i s).readByte addr = s.readByte addr := by
  rcases effectOf_cases i s with ⟨_, hi, _⟩ | ⟨_, hi, _⟩ | ⟨_, _, _, e⟩ | ⟨_, _, _, e⟩ | ⟨_, _, _, e⟩ | ⟨_, _, e⟩ |
    ⟨_, _, e⟩ <;> first | exact absurd hi (h _) | (rw [e]; rfl)

/-- EXPAND_KEY's effect leaves every byte outside the table's lanes alone. -/
theorem expandKeyEffect_readByte (r : Nat) (s : Inst w) {b : Nat}
    (hb : ∀ j, j < tableLength r → b < tableAddr j ∨ tableAddr j + w.bytes ≤ b) :
    (expandKeyEffect r s).readByte b = s.readByte b := by
  rcases expandKeyEffect_cases r s with ⟨_, e⟩ | ⟨_, e⟩ <;> rw [e, drawBuffer_readByte]
  · exact Inst.readByte_writeTable_other s fun j hj => hb (0 + j) (by simpa using hj)
  · refine s.readByte_drawTable_other (decide_eq_false ?_)
    have hl := hb ((b - tableAddr 0) / 8)
    simp only [tableAddr] at hl ⊢
    omega

/-- A command's effect leaves K alone. -/
theorem effectOf_readKey (i : Instr) (s : Inst w) {k : Nat} (hk : k < 255) :
    (effectOf i s).readKey k = s.readKey k := by
  by_cases h : ∃ r, i = .expandKey r
  · obtain ⟨r, rfl⟩ := h
    exact expandKeyEffect_readByte r s fun j _ => by simp only [keyAddr, tableAddr]; omega
  · exact effectOf_readByte s (fun r hr => h ⟨r, hr⟩) _

/-- The words of S after EXPAND_KEY's effect over a specified key are those of the table write. -/
theorem expandKeyEffect_readTable {r : Nat} {s : Inst w} (h : s.keySpecified = true) :
    (expandKeyEffect r s).readTable =
      (s.writeTable 0 (expandedTable w s.readKey s.keyLen.toNat r)).readTable := by
  funext i
  simp only [Inst.readTable]
  rw [Inst.readLanes_congr]
  intro k _
  simp only [expandKeyEffect, h, if_true]
  rfl

/-- EXPAND_KEY's table over a specified key, word by word. -/
theorem readTable_expandKeyEffect {r i : Nat} {s : Inst w} (h : s.keySpecified = true) (hi : i < tableLength r) :
    (expandKeyEffect r s).readTable i = (expandedTable w s.readKey s.keyLen.toNat r).getD i 0 := by
  have hl : i < (expandedTable w s.readKey s.keyLen.toNat r).length := by simpa using hi
  rw [expandKeyEffect_readTable h, List.getD_eq_getElem _ _ hl]
  simpa using s.readTable_writeTable_same (i := 0) hl

/-- An effect neither reads nor writes the environment's part. -/
theorem effectOf_environment (i : Instr) (s : Inst w) (prog : List HostOp) (sched : List Agent)
    (response : Option Response) :
    effectOf i { s with prog := prog, sched := sched, response := response } =
      { effectOf i s with prog := prog, sched := sched, response := response } := by
  have h : ({ s with prog := prog, sched := sched, response := response } : Inst w).readTable = s.readTable := by
    funext j
    simp only [Inst.readTable]
    rw [Inst.readLanes_congr]
    intro k _
    rfl
  have hk : ({ s with prog := prog, sched := sched, response := response } : Inst w).keySpecified =
      s.keySpecified := rfl
  have ht : ∀ r, ({ s with prog := prog, sched := sched, response := response } : Inst w).tableSpecified r =
      s.tableSpecified r := fun _ => rfl
  cases i <;> simp only [effectOf, expandKeyEffect, encryptEffect, decryptEffect, blockEffect, h, hk, ht] <;>
    (try split) <;> rfl

/-- The check passes for EXPAND_KEY exactly up to R_MAX. -/
theorem checkExpandKey_none {r : Nat} : checkExpandKey r = none ↔ r ≤ 255 := by
  simp only [checkExpandKey]
  split <;> rename_i h <;> simp [Config.roundsMax] at h ⊢ <;> omega

theorem checkBlock_none {r : Nat} {s : Inst w} : checkBlock r s = none ↔ 2 * (r + 1) ≤ s.sLen.toNat := by
  simp only [checkBlock]
  split <;> simp <;> omega

end Sys2Proof.Machine
end

