-- ==== Sys2Proof/Laws/Step.lean ====
section
/-! SUPPORT. What a host access and a step can do. -/

namespace Sys2Proof.Machine

open Sys2Proof

variable {w : Width}

theorem writeSLen_cases (s : Inst w) (v : BitVec 10) :
    (v.toNat ≤ Config.tableMax ∧ s.writeSLen v = { s with sLen := v }) ∨
    (Config.tableMax < v.toNat ∧ s.writeSLen v = s) := by
  unfold Inst.writeSLen
  split
  · exact .inl ⟨‹_›, rfl⟩
  · exact .inr ⟨by omega, rfl⟩

theorem busError_cases {why : Fault} {mark : Bool} {s t : State} (h : busError why mark s = .next t) :
    t = s.map (·.respond .busErr) := by
  unfold busError at h
  split at h <;> cases h
  rfl

/-- A read that gets OK records its data (20_memory.md R55, R56). -/
theorem hostRead_ok {addr : BitVec 13} {mark : Bool} {s : State} {data : BitVec 64}
    (h : memRead addr s.inst = .ok data) : hostRead addr mark s = .next (s.map (·.respond (.readOk data))) := by
  simp [hostRead, h]

/-- Everything a host read can do when it answers a next state. -/
theorem hostRead_cases {addr : BitVec 13} {mark : Bool} {s t : State} (h : hostRead addr mark s = .next t) :
    ∃ r, t = s.map (·.respond r) := by
  unfold hostRead at h
  split at h
  · cases h; exact ⟨_, rfl⟩
  · exact ⟨_, busError_cases h⟩

/-- Everything a host write can do when it answers a next state. -/
theorem hostWrite_cases {addr : BitVec 13} {v : BitVec 64} {mark : Bool} {s t : State}
    (h : hostWrite addr v mark s = .next t) :
    t = s.map (·.respond .busErr) ∨
    ∃ slot, slotAt addr = .ok slot ∧ s.inst.status.busy = false ∧
      slot.store v (s.map (·.respond .writeOk)) = .next t := by
  unfold hostWrite at h
  split at h
  · exact .inl (busError_cases h)
  · split at h
    · exact .inl (busError_cases h)
    · rename_i slot hslot hbusy
      exact .inr ⟨slot, hslot, by simpa using hbusy, h⟩

/-- Everything an accepted command word can do when it answers a next state. -/
theorem acceptWord_cases {v : BitVec 64} {s t : State} (h : acceptWord v s = .next t) :
    t = s.map (raiseError .illegalCommand) ∨ ∃ i, decodeWord v = .ok i ∧ exec i s = .next t := by
  unfold acceptWord at h
  split at h
  · cases h; exact .inl rfl
  · exact .inr ⟨_, ‹_›, h⟩

/-- A decoded command is well-formed. -/
theorem decodeWord_wellFormed {v : BitVec 64} {i : Instr} (h : decodeWord v = .ok i) : i.wellFormed = true := by
  have hr := (roundsField v).isLt
  unfold decodeWord at h
  split at h <;> first
    | (cases h; simpa [Instr.rounds] using hr)
    | cases h

/-- Everything a step can do: it is the step of the agent whose move it is, at a state with a schedule that may be
shorter. -/
theorem step_eq (s : State) : ∃ later, step s = agentStep s.mover (s.map (·.reschedule later)) := by
  cases h : s.inst.sched with
  | nil => exact ⟨s.inst.sched, by simp only [step, State.mover, h]; rw [← h]; rfl⟩
  | cons ag later => exact ⟨later, by simp only [step, State.mover, h]⟩

/-! ### The fixed addresses -/

@[simp] theorem slotAt_id : slotAt 0#13 = .ok .id := by decide
@[simp] theorem slotAt_cmd : slotAt 8#13 = .ok .cmd := by decide
@[simp] theorem slotAt_status : slotAt 16#13 = .ok .status := by decide
@[simp] theorem slotAt_keyLen : slotAt 24#13 = .ok .keyLen := by decide
@[simp] theorem slotAt_sLen : slotAt 32#13 = .ok .sLen := by decide
@[simp] theorem slotAt_regA : slotAt 40#13 = .ok .regA := by decide
@[simp] theorem slotAt_regB : slotAt 48#13 = .ok .regB := by decide

end Sys2Proof.Machine
end

