-- ==== Sys2Proof/Laws/Invariant.lean ====
section
/-! SUPPORT. What the invariant depends on. -/

namespace Sys2Proof.Machine

open Sys2Proof

variable {w : Width}

/-- The invariant is about STATUS, PENDING, S_LEN and the memory only. -/
theorem Inst.Inv.congr {s t : Inst w} (h : s.Inv) (hst : t.status = s.status) (hp : t.pending = s.pending)
    (hl : t.sLen = s.sLen) (hm : t.mem = s.mem) : t.Inv := by
  refine ⟨hst ▸ h.status_legal, by rw [hst, hp]; exact h.busy_iff_pending, hl ▸ h.sLen_le, hm ▸ h.mem_wf, ?_⟩
  intro i hi
  obtain ⟨hw, hc⟩ := h.pending_checked i (hp ▸ hi)
  refine ⟨hw, ?_⟩
  cases i <;> simp only [commandCheck, checkBlock_none, hl] at hc ⊢ <;> exact hc

theorem Inst.Inv.pending_none {s : Inst w} (h : s.Inv) (hb : s.status.busy = false) : s.pending = none := by
  have := h.busy_iff_pending
  rw [hb] at this
  simpa using this.symm

/-- The invariant after a change of the memory to another in canonical form. -/
theorem Inst.Inv.of_mem {s : Inst w} (h : s.Inv) {m : Memory} (hm : m.wf w = true) :
    ({ s with mem := m } : Inst w).Inv :=
  ⟨h.status_legal, h.busy_iff_pending, h.sLen_le, hm, h.pending_checked⟩

end Sys2Proof.Machine
end

