-- ==== Sys2Proof/Laws/PerInstr.lean ====
section
/-! SUPPORT. Per-command lemmas. EncodedFields: the fields of a command's word are its opcode and its ROUNDS. -/

namespace Sys2Proof

theorem fields_of_word (x : BitVec 16) (o : BitVec 4) :
    opcField (x.setWidth 64 <<< 8 ||| o.setWidth 64) = o ∧
    roundsField (x.setWidth 64 <<< 8 ||| o.setWidth 64) = x := by
  constructor <;> ext k hk <;> simp [roundsField, opcField] <;> interval_cases k <;> simp

/-- The bytes of an integer read back as that integer, as far as they reach. -/
theorem natOfBytes_bytesOfNat (n v : Nat) : natOfBytes (bytesOfNat n v) = v % 256 ^ n := by
  induction n generalizing v with
  | zero => simp [bytesOfNat, natOfBytes, Nat.mod_one]
  | succ n ih =>
    simp only [bytesOfNat, natOfBytes, ih, BitVec.toNat_ofNat]
    rw [Nat.pow_succ (n := 256), Nat.mul_comm (256 ^ n), Nat.mod_mul]

theorem natOfBytes_lt (xs : List Byte) : natOfBytes xs < 256 ^ xs.length := by
  induction xs with
  | nil => simp [natOfBytes]
  | cons x xs ih =>
    have := x.isLt
    simp only [natOfBytes, List.length_cons, Nat.pow_succ]
    omega

@[simp] theorem length_bytesOfNat (n v : Nat) : (bytesOfNat n v).length = n := by
  induction n generalizing v with
  | zero => rfl
  | succ n ih => simp [bytesOfNat, ih]

/-- Decoding the 8 byte lanes of a word is decoding the word. -/
theorem decode_bytesOfNat (v : BitVec 64) : decode (bytesOfNat 8 v.toNat) = decodeWord v := by
  simp only [decode, length_bytesOfNat, if_true, natOfBytes_bytesOfNat]
  congr 1
  apply BitVec.eq_of_toNat_eq
  have := v.isLt
  simp only [BitVec.toNat_ofNat]
  omega

/-- The OPC and ROUNDS fields of a well-formed command's word (30_encoding.md R81, R84). -/
def Laws.EncodedFields.Statement (i : Instr) : Prop :=
  i.wellFormed = true → opcField (encode i) = i.opcode ∧ (roundsField (encode i)).toNat = i.rounds

theorem Laws.EncodedFields.of_rounds (i : Instr) : Laws.EncodedFields.Statement i := fun h => by
  have h16 : i.rounds < 65536 := (Instr.wellFormed_iff i).1 h
  refine ⟨(fields_of_word _ _).1, ?_⟩
  rw [encode, (fields_of_word _ _).2, BitVec.toNat_ofNat, Nat.mod_eq_of_lt h16]

theorem Laws.EncodedFields.expandKey (r : Nat) : Laws.EncodedFields.Statement (.expandKey r) :=
  Laws.EncodedFields.of_rounds _

theorem Laws.EncodedFields.encrypt (r : Nat) : Laws.EncodedFields.Statement (.encrypt r) :=
  Laws.EncodedFields.of_rounds _

theorem Laws.EncodedFields.decrypt (r : Nat) : Laws.EncodedFields.Statement (.decrypt r) :=
  Laws.EncodedFields.of_rounds _

theorem Laws.EncodedFields.rotl (r : Nat) : Laws.EncodedFields.Statement (.rotl r) :=
  Laws.EncodedFields.of_rounds _

theorem Laws.EncodedFields.rotr (r : Nat) : Laws.EncodedFields.Statement (.rotr r) :=
  Laws.EncodedFields.of_rounds _

end Sys2Proof
end

