-- ==== Sys2Proof/Tests/Slice0.lean ====
section
/-! SUPPORT. The model's own tests. Expected values are those of spec/95_test_vectors.md (V-… names) and of the rules'
own examples; the witnesses show that the hypotheses of each statement can be met. -/

namespace Sys2Proof.Tests

open Sys2Proof Sys2Proof.Machine

/-! ### States -/

/-- An idle W = 32 core with (A, B) = (0x80000001, 33) (V-R1). -/
def idle : Inst .w32 := { Inst.reset .w32 with a := (0x80000001 : BitVec 32), b := (33 : BitVec 32) }

/-- An idle W = 8 core with the all-zero table of V-B13. -/
def idle8 : Inst .w8 :=
  { Inst.reset .w8 with
    a := (0x81 : BitVec 8), b := (0x08 : BitVec 8), sLen := 4
    mem := Memory.writeTable (w := .w8) [] 0 [(0 : BitVec 8), (0 : BitVec 8), (0 : BitVec 8), (0 : BitVec 8)] }

/-- A W = 16 core with the key 11 22 33 (V-KS5). -/
def keyed16 : Inst .w16 :=
  { Inst.reset .w16 with
    keyLen := 3
    mem := ((Memory.write [] (keyAddr 0) 0x11).write (keyAddr 1) 0x22).write (keyAddr 2) 0x33 }

/-- The instance with a command pending. -/
def pendingOn {w : Width} (i : Instr) (s : Inst w) : Inst w := accept i s

/-- The instance with a host about to make one access, the host to move. -/
def hostAt {w : Width} (op : HostOp) (s : Inst w) : Inst w := { s with prog := [op], sched := [.host] }

/-- What a test looks at in an outcome. -/
def see {α : Type} (o : Host.Outcome State Fault Refusal) (f : (s : State) → α) : Option α :=
  match o with
  | .next s => some (f s)
  | .fault _ => none
  | .refused _ => none

/-- A and B as numbers. -/
def ab (s : State) : Nat × Nat := (s.inst.a.toNat, s.inst.b.toNat)

/-- STATUS as the host reads it. -/
def stat (s : State) : Nat := s.inst.status.word.toNat

/-! ### WellFormed smoke -/

theorem test_wellFormed_refuses_wide_rounds : (Instr.rotl 65536).wellFormed = false := by decide
theorem test_wellFormed_refuses_wide_rounds_expandKey : (Instr.expandKey 70000).wellFormed = false := by decide
theorem test_wellFormed_takes_widest_rounds : (Instr.expandKey 65535).wellFormed = true := by decide

/-! ### Decoding, from the format of 30_encoding.md R81 and R84

Words written out bit by bit: RSV1 (40 bits) ROUNDS (16) RSV0 (4) OPC (4). -/

theorem test_decode_expandKey : decodeWord 0b000000001100_0000_0001#64 = .ok (.expandKey 12) := by decide
theorem test_decode_encrypt : decodeWord 0b000000001100_0000_0010#64 = .ok (.encrypt 12) := by decide
theorem test_decode_decrypt : decodeWord 0b000000001100_0000_0011#64 = .ok (.decrypt 12) := by decide
theorem test_decode_rotl : decodeWord 0b000000000000_0000_0100#64 = .ok (.rotl 0) := by decide
theorem test_decode_rotr : decodeWord 0b111111111111_1111_0101#64 = .ok (.rotr 4095) := by decide
theorem test_decode_reserved_bits : decodeWord 0xFFFFFFFFFF0000F2#64 = .ok (.encrypt 0) := by decide
theorem test_decode_rounds_not_the_neighbour_fields :
    decodeWord 0xABCDEFABCD1234A3#64 = .ok (.decrypt 0x1234) := by decide
theorem test_decode_illegal :
    decodeWord 0x0#64 = .error (.illegalOpcode 0) ∧ decodeWord 0x6#64 = .error (.illegalOpcode 6) ∧
    decodeWord 0xF#64 = .error (.illegalOpcode 15) ∧ decodeWord 0xFFFF00#64 = .error (.illegalOpcode 0) := by
  decide
theorem test_decode_lanes : decode [0x01, 0x0C, 0, 0, 0, 0, 0, 0] = .ok (.expandKey 12) := by decide
theorem test_decode_short : decode [0x01, 0x0C] = .error (.notOneWord 2) := by decide
theorem test_decodeTableWord : decodeTableWord 24 0x0C02 = some (.encrypt 12) ∧ decodeTableWord 4 0x15 = some (.rotr 0) := by
  decide
theorem test_encode : encode (.decrypt 12) = 0x0C03 := by decide

/-! ### Datapath and rotation (V-D, V-R tables of 95_test_vectors.md §2.1, §2.2) -/

theorem test_add_wraps : (addW (0xF0 : Word .w8) 0x20).toNat = 0x10 := by decide
theorem test_sub_wraps : (subW (0x0001 : Word .w16) 0x0002).toNat = 0xFFFF := by decide
theorem test_xor : (xorW (0x0F0F0F0F : Word .w32) 0xFF00FF00).toNat = 0xF00FF00F := by decide
theorem test_and : (andW (0xB7 : Word .w8) 0x0F).toNat = 0x07 := by decide
theorem test_or : (orW (0x80 : Word .w8) 0x01).toNat = 0x81 := by decide
theorem test_shl : (shlW (0x81 : Word .w8) ⟨1, by decide⟩).toNat = 0x02 := by decide
theorem test_shr : (shrW (0x81 : Word .w8) ⟨1, by decide⟩).toNat = 0x40 := by decide
theorem test_zext : (zext8W .w32 0xAA).toNat = 0x000000AA := by decide
theorem test_rotations8 :
    (rotlW (0x81 : Word .w8) 9).toNat = 0x03 ∧ (rotrW (0x81 : Word .w8) 3).toNat = 0x30 ∧
    (rotlW (0x81 : Word .w8) 8).toNat = 0x81 := by decide
theorem test_rotations64 :
    (rotlW (0x8000000000000001 : Word .w64) 65).toNat = 0x3 ∧
    (rotrW (0x8000000000000001 : Word .w64) 63).toNat = 0x3 := by decide
theorem test_widths : Config.widthOf? 24 = none ∧ Config.widthOf? 64 = some .w64 := by decide

/-- The block of V1's byte string, and a byte more or less than a block, which is none. -/
theorem test_block_of_bytes :
    (blockOfBytes? .w32 [0x21, 0xA5, 0xDB, 0xEE, 0x15, 0x4B, 0x8F, 0x6D]).map (fun x => (x.1.toNat, x.2.toNat)) =
      some (0xEEDBA521, 0x6D8F4B15) ∧
    (blockOfBytes? .w8 [1, 2, 3]).isNone = true ∧ (blockOfBytes? .w8 [1]).isNone = true := by decide

/-! ### ROTL and ROTR (V-R1, V-R3, V-R4) -/

theorem test_rotl : see (exec (.rotl 0) ⟨_, pendingOn (.rotl 0) idle⟩) ab = some (0x00000003, 33) := by decide
theorem test_rotl_by_width :
    see (exec (.rotl 0) ⟨_, pendingOn (.rotl 0) { idle with b := (0x40 : BitVec 32) }⟩) ab = some (0x80000001, 0x40) := by
  decide
theorem test_rotr : see (exec (.rotr 0) ⟨_, pendingOn (.rotr 0) idle⟩) ab = some (0xC0000000, 33) := by decide
theorem test_rotr_done : see (exec (.rotr 0) ⟨_, pendingOn (.rotr 0) idle⟩) stat = some 0x02 := by decide

/-! ### EXPAND_KEY (V-KS1, V-KS2, V-KS3, V-KS5) -/

theorem test_pack :
    (pack .w16 (fun k => if k = 0 then 0x11 else if k = 1 then 0x22 else 0x33) 3).map (·.toNat) = [0x2211, 0x0033] := by
  decide
theorem test_init : (initTable .w16 4).map (·.toNat) = [0xB7E1, 0x5618, 0xF44F, 0x9286] := by decide
theorem test_expandKey_emptyKey :
    see (exec (.expandKey 0) ⟨_, pendingOn (.expandKey 0) (Inst.reset .w32)⟩)
      (fun s => ((s.inst.readTable 0).toNat, (s.inst.readTable 1).toNat, s.inst.sLen.toNat)) =
      some (0x4DBA7B7A, 0x1E1D1179, 2) := by
  decide +kernel
theorem test_expandKey_threeBytes :
    see (exec (.expandKey 1) ⟨_, pendingOn (.expandKey 1) keyed16⟩)
      (fun s => ((s.inst.readTable 0).toNat, (s.inst.readTable 1).toNat, (s.inst.readTable 2).toNat,
        (s.inst.readTable 3).toNat)) =
      some (0x0F87, 0xC7F7, 0x70DC, 0x1A03) := by
  decide +kernel

/-! ### ENCRYPT and DECRYPT (V-B13, V1 with its byte string, V-B14's shorter count) -/

theorem test_encrypt : see (exec (.encrypt 1) ⟨_, pendingOn (.encrypt 1) idle8⟩) ab = some (0x89, 0x03) := by decide +kernel
theorem test_decrypt :
    see (exec (.decrypt 1) ⟨_, pendingOn (w := .w8) (.decrypt 1) { idle8 with a := (0x89 : BitVec 8), b := (0x03 : BitVec 8) }⟩) ab =
      some (0x81, 0x08) := by
  decide +kernel

/-- The table of V1: W = 32, sixteen zero key bytes, r = 12. -/
def v1Table (i : Nat) : Word .w32 := (expandedTable .w32 (fun _ => 0) 16 12).getD i 0

theorem test_v1_table :
    (v1Table 0).toNat = 0x9BBBD8C8 ∧ (v1Table 1).toNat = 0x1A37F7FB ∧ (v1Table 25).toNat = 0x65046380 := by
  decide +kernel
theorem test_v1_ciphertext :
    ((enc v1Table 12 (0, 0)).1.toNat, (enc v1Table 12 (0, 0)).2.toNat) = (0xEEDBA521, 0x6D8F4B15) := by
  decide +kernel
theorem test_v1_bytes :
    bytesOfBlock (w := .w32) ((0xEEDBA521 : BitVec 32), (0x6D8F4B15 : BitVec 32)) =
      [0x21, 0xA5, 0xDB, 0xEE, 0x15, 0x4B, 0x8F, 0x6D] := by
  decide

/-! ### Unspecified operands (70_reset_and_hazards.md R235, 93_implementation_defined.md U4)

S[1] is written and S[0] is not, so neither half of ENCRYPT 0 is computed from the table; the key byte K[0] is not
written, so S_LEN after EXPAND_KEY is not 2. -/

/-- An idle W = 8 core with S_LEN = 2 of whose table only S[1] is written. -/
def halfTable8 : Inst .w8 := { (Inst.reset .w8).writeTable 1 [(0x55 : BitVec 8)] with sLen := 2 }

/-- An idle W = 8 core with KEY_LEN = 1 and no key byte written, over a written table. -/
def unkeyed8 : Inst .w8 := { idle8 with keyLen := 1 }

theorem test_encrypt_unspecified :
    see (exec (.encrypt 0) ⟨_, pendingOn (.encrypt 0) halfTable8⟩) (fun s => (ab s, stat s)) =
      some ((((Config.resultWord 0 0).setWidth 8).toNat, ((Config.resultWord 0 1).setWidth 8).toNat), 0x02) := rfl
theorem test_expandKey_unspecified :
    see (exec (.expandKey 0) ⟨_, pendingOn (.expandKey 0) unkeyed8⟩)
      (fun s => (s.inst.sLen, s.inst.mem.read 0x1000, s.inst.mem.read 0x1008, s.inst.mem.read 0x1010, stat s)) =
      some (BitVec.ofNat 10 (Config.resultLength 0).val, none, none, some 0, 0x02) := rfl

/-! ### Acceptance and errors (V-E1, V-E2, V-E6, V-E10) -/

theorem test_encrypt_tableTooShort :
    see (acceptWord 0x2 ⟨_, idle⟩) (fun s => (stat s, s.inst.pending)) = some (0x26, none) := by decide
theorem test_encrypt_accepted :
    see (acceptWord 0x2 ⟨_, { idle with sLen := 2 }⟩) (fun s => (stat s, s.inst.pending)) =
      some (0x01, some (.encrypt 0)) := by decide
theorem test_expandKey_invalidRounds : see (acceptWord 0x10001 ⟨_, idle⟩) stat = some 0x16 := by decide
theorem test_illegalCommand : see (acceptWord 0xFFFF00 ⟨_, idle⟩) stat = some 0x36 := by decide

/-! ### The host bus (V-M1, V-M4, V-M7, V-M8, V-M10, V-M15) and steps -/

theorem test_read_id : memRead 0x0000 idle = .ok 0xFF20 := by decide
theorem test_read_misaligned : memRead 0x0004 idle = .error .misaligned := by decide
theorem test_read_unmapped : memRead 0x0FF8 idle = .error .unmapped := by decide
theorem test_write_key_keeps_8_bits :
    see (hostWrite 0x0800 0x1234 false ⟨_, idle⟩) (fun s => (s.inst.readKey 0).toNat) = some 0x34 := by decide
theorem test_write_sLen_above_512 :
    see (hostWrite 0x0020 513 false ⟨_, { idle with sLen := 2 }⟩) (fun s => s.inst.sLen.toNat) = some 2 := by decide
theorem test_write_busy : hostWrite 0x0028 5 false ⟨_, pendingOn (.rotl 0) idle⟩ = .fault .busyLock := rfl
theorem test_placed_word_runs :
    see (step (State.reset.withFetchWord 24 0x0C01)) (fun s => (s.inst.pending, s.inst.response)) =
      some (some (.expandKey 12), some .writeOk) := by decide
theorem test_lines :
    hostProgram [.loadKey [0x11, 0x22] false, .expandKey 12 false, .wait] =
      [.wr 0x0800 0x11 false, .wr 0x0808 0x22 false, .wr 0x0018 2 false, .wr 0x0008 0x0C01 false, .wait] := by
  decide

/-- An operand of `LOADKEY` above 8 bits goes on the bus whole (R96, R97). -/
theorem test_line_wide_key :
    hostProgram [.loadKey [0x1234] false] = [.wr 0x0800 0x1234 false, .wr 0x0018 1 false] := by decide

/-- 95_test_vectors.md P6 line 8: a `ROTR` line that is answered BUSERR while ROTL is pending. -/
theorem test_line_answered_busErr :
    see (step ⟨_, { pendingOn (.rotl 0) idle with prog := hostProgram [.rotr true], sched := [.host] }⟩)
      (fun s => (s.inst.response, s.inst.pending, ab s)) =
      some (some .busErr, some (.rotl 0), (0x80000001, 33)) := by decide

/-! ### Witnesses

One theorem per statement with hypotheses: a concrete input that meets all of them together, one for each clause. -/

/-- A state with a command pending and the core to move. -/
def coreAt {w : Width} (i : Instr) (s : Inst w) : Inst w := { pendingOn i s with sched := [.core] }

theorem idle_inv : idle.Inv := ⟨rfl, rfl, by decide, rfl, fun _ h => by cases h⟩

theorem rotl_pending_inv : (pendingOn (.rotl 0) idle).Inv :=
  ⟨rfl, rfl, by decide, rfl, fun i h => by cases h; exact ⟨rfl, rfl⟩⟩

theorem witness_DecodeOfEncodeIsIdentity :
    (Instr.expandKey 0).wellFormed = true ∧ (Instr.rotr 65535).wellFormed = true ∧
    decodeWord 0xFFFFFFFFFF0000F2#64 = .ok (.encrypt 0) := by decide

theorem witness_IllegalOpcodesAreRejected :
    opcField 0x0#64 = 0 ∧ 6 ≤ (opcField 0x6#64).toNat ∧ 6 ≤ (opcField 0xF#64).toNat ∧ opcField 0x1#64 = 1 ∧
    opcField 0x2#64 = 2 ∧ opcField 0x3#64 = 3 ∧ opcField 0x4#64 = 4 ∧ opcField 0x5#64 = 5 := by decide

/-- Both ways the host can be the one to move, with a write to CMD. -/
theorem witness_StepRunsTheWrittenCommand :
    ∃ (s t : Inst .w32) (v : BitVec 64), s.status.busy = false ∧ s.prog = .wr 0x0008 v false :: [] ∧
      decodeWord v = .ok (.rotl 0) ∧ s.sched = .host :: [] ∧
      t.status.busy = false ∧ t.prog = .wr 0x0008 v false :: [] ∧ t.sched = [] ∧ t.pending = none :=
  ⟨hostAt (.wr 0x0008 0x4 false) idle, { idle with prog := [.wr 0x0008 0x4 false] }, 0x4,
    rfl, rfl, rfl, rfl, rfl, rfl, rfl, rfl⟩

/-- The host to move with an illegal word for CMD, another write, a read, a WAIT, and no access left. -/
theorem witness_StepRunsTheWrittenCommand_lines :
    (hostAt (.wr 0x0008 0x6 false) idle).sched = .host :: [] ∧
    (hostAt (.wr 0x0008 0x6 false) idle).prog = .wr 0x0008 0x6 false :: [] ∧ idle.status.busy = false ∧
    (hostAt (.wr 0x1FF8 5 true) (pendingOn (.rotl 0) idle)).sched = .host :: [] ∧
    (hostAt (.wr 0x1FF8 5 true) (pendingOn (.rotl 0) idle)).prog = .wr 0x1FF8 5 true :: [] ∧
    (hostAt (.rd 0x0000 false) idle).sched = .host :: [] ∧
    (hostAt (.rd 0x0000 false) idle).prog = .rd 0x0000 false :: [] ∧
    (hostAt .wait (pendingOn (.rotl 0) idle)).sched = .host :: [] ∧
    (hostAt .wait (pendingOn (.rotl 0) idle)).prog = .wait :: [] ∧
    ({ idle with sched := [.host] } : Inst .w32).sched = .host :: [] ∧
    ({ idle with sched := [.host] } : Inst .w32).prog = [] := by decide

theorem witness_StepCompletesThePendingCommand :
    (coreAt (.rotl 0) idle).pending = some (.rotl 0) ∧ (coreAt (.rotl 0) idle).sched = .core :: [] ∧
    (pendingOn (.rotl 0) idle).pending = some (.rotl 0) ∧ (pendingOn (.rotl 0) idle).sched = [] ∧
    ({ idle with sched := [.core] } : Inst .w32).pending = none ∧
    ({ idle with sched := [.core] } : Inst .w32).sched = .core :: [] := by decide

theorem witness_PlacedWordRunsNext :
    idle.status.busy = false ∧ decodeTableWord 24 0x0C01 = some (.expandKey 12) := by decide

theorem witness_ResetLeavesTheStatedValues :
    ({ coreAt (.rotl 0) idle with sched := [.environment] } : Inst .w32).sched = .environment :: [] := rfl

theorem witness_ResetCancelsThePendingCommand :
    ({ coreAt (.rotl 0) idle with sched := [.environment, .core] } : Inst .w32).status.busy = true ∧
    ({ coreAt (.rotl 0) idle with sched := [.environment, .core] } : Inst .w32).sched =
      .environment :: .core :: [] := by decide

theorem witness_AfterResetTheCoreIsIdle : 255 ≤ 255 ∧ 511 < 2 * (255 + 1) ∧ 0 ≤ 255 ∧ 1 < 2 * (0 + 1) := by decide

theorem witness_EveryStepKeepsTheInvariant :
    ∃ s t : State, s.inst.Inv ∧ step s = .next t :=
  ⟨⟨_, pendingOn (.rotl 0) idle⟩, _, rotl_pending_inv, rfl⟩

theorem witness_OnlyUnmarkedBusErrorsStop :
    ∃ s t : State, s.inst.Inv ∧ step s = .fault .misaligned ∧ t.inst.Inv ∧ step t = .fault .busyLock :=
  ⟨⟨_, hostAt (.rd 0x0004 false) idle⟩, ⟨_, hostAt (.wr 0x0028 5 false) (pendingOn (.rotl 0) idle)⟩,
    idle_inv.congr rfl rfl rfl rfl, rfl, rotl_pending_inv.congr rfl rfl rfl rfl, rfl⟩

theorem witness_OnlyCompletionOrResetClearsBusy :
    ∃ s t : State, s.inst.status.busy = true ∧ step s = .next t ∧ t.inst.status.busy = false :=
  ⟨⟨_, pendingOn (.rotl 0) idle⟩, _, rfl, rfl, rfl⟩

theorem witness_BusyLockKeepsTheCore :
    ∃ (s : Inst .w32) (t : State), s.status.busy = true ∧ State.mover ⟨_, s⟩ = .host ∧ step ⟨_, s⟩ = .next t :=
  ⟨hostAt (.wr 0x0028 5 true) (pendingOn (.rotl 0) idle), _, rfl, rfl, rfl⟩

/-- Every clause of EachComponentHasItsWriters has its case: a step to a next state in which the component is another.
A completion changes STATUS and A; a write changes B, KEY_LEN, S_LEN, K[254] and S[511]. -/
theorem witness_EachComponentHasItsWriters_completion :
    (pendingOn (.rotl 0) idle).Inv ∧ State.mover ⟨_, pendingOn (.rotl 0) idle⟩ ≠ .environment ∧
    see (step ⟨_, pendingOn (.rotl 0) idle⟩) (fun t => (stat t, ab t)) = some (2, 3, 33) ∧
    (stat ⟨_, pendingOn (.rotl 0) idle⟩, ab ⟨_, pendingOn (.rotl 0) idle⟩) = (1, 0x80000001, 33) :=
  ⟨rotl_pending_inv, by decide, by decide, by decide⟩

theorem witness_EachComponentHasItsWriters_registers :
    idle.Inv ∧
    see (step ⟨_, hostAt (.wr 0x0030 5 false) idle⟩) ab = some (0x80000001, 5) ∧
    see (step ⟨_, hostAt (.wr 0x0018 5 false) idle⟩) (fun t => t.inst.keyLen) = some 5 ∧
    see (step ⟨_, hostAt (.wr 0x0020 512 false) idle⟩) (fun t => t.inst.sLen) = some 512 ∧
    ab ⟨_, idle⟩ = (0x80000001, 33) ∧ idle.keyLen = 0 ∧ idle.sLen = 0 :=
  ⟨idle_inv, by decide⟩

theorem witness_EachComponentHasItsWriters_arrays :
    (idle.writeKey 254 7).Inv ∧ (idle.writeTable 511 [(7 : BitVec 32)]).Inv ∧
    see (step ⟨_, hostAt (.wr 0x0FF0 5 false) (idle.writeKey 254 7)⟩) (fun t => t.inst.readKey 254) = some 5 ∧
    (idle.writeKey 254 7).readKey 254 = 7 ∧
    see (step ⟨_, hostAt (.wr 0x1FF8 5 false) (idle.writeTable 511 [(7 : BitVec 32)])⟩)
      (fun t => (t.inst.readTable 511).toNat) = some 5 ∧
    ((idle.writeTable 511 [(7 : BitVec 32)]).readTable 511).toNat = 7 :=
  ⟨idle_inv.of_mem rfl, idle_inv.of_mem rfl, by decide, by decide, by decide, by decide⟩

theorem witness_EachComponentHasItsWriters_buffer :
    (pendingOn (.expandKey 0) (Inst.reset .w32)).Inv ∧
    see (step ⟨_, pendingOn (.expandKey 0) (Inst.reset .w32)⟩) (fun t => t.inst.lDraw) = some 1 ∧
    (pendingOn (.expandKey 0) (Inst.reset .w32)).lDraw = 0 :=
  ⟨⟨rfl, rfl, by decide, rfl, fun i h => by cases h; exact ⟨rfl, rfl⟩⟩, by decide, by decide⟩

theorem witness_StatusReadSynchronises :
    idle.Inv ∧ ((memRead 0x0010 idle).toOption.getD 1).getLsbD 0 = false := ⟨idle_inv, by decide⟩

theorem witness_ResultIsIndependentOfInterleaving :
    ∃ (s : Inst .w32) (t : State), s.pending = some (.rotl 0) ∧ s.status.busy = true ∧
      s.sched = List.replicate 2 .host ++ .core :: [] ∧ steps (2 + 1) ⟨_, s⟩ = .next t :=
  ⟨{ pendingOn (.rotl 0) idle with prog := [.rd 0x0028 true, .wait], sched := [.host, .host, .core] }, _,
    rfl, rfl, rfl, rfl⟩

theorem witness_ExpandKeyAcceptance : idle.pending = none ∧ 255 < 256 ∧ 255 ≤ 255 := by decide

/-- S_LEN = 2 at r = 0 (accepted) and r = 1 (too short); S_LEN = 512 at r = 256; a shorter count at S_LEN = 4. -/
theorem witness_BlockAcceptance :
    ({ idle with sLen := 2 } : Inst .w32).pending = none ∧ (2 : BitVec 10).toNat < 2 * (1 + 1) ∧
    2 * (0 + 1) ≤ (2 : BitVec 10).toNat ∧ (512 : BitVec 10).toNat ≤ 512 ∧ 255 < 256 ∧
    (4 : BitVec 10).toNat = 2 * (1 + 1) ∧ 0 ≤ 1 := by decide

theorem witness_CommandWordIsReportedOrAccepted : idle.pending = none := rfl

theorem witness_NoErrorArisesAtCompletion :
    (pendingOn (.rotl 0) idle).Inv ∧ (pendingOn (.rotl 0) idle).pending = some (.rotl 0) := ⟨rotl_pending_inv, rfl⟩

theorem witness_SecondCommandIsTurnedAway :
    (pendingOn (.rotl 0) idle).pending = some (.rotl 0) ∧ Instr.rotl 0 ≠ .rotr 0 := by decide

theorem witness_RotlCompletes :
    idle.pending = none ∧ (pendingOn (.rotl 0) idle).pending = some (.rotl 0) := by decide

theorem witness_RotrCompletes :
    idle.pending = none ∧ (pendingOn (.rotr 0) idle).pending = some (.rotr 0) := by decide

theorem witness_EncryptCompletes :
    (pendingOn (.encrypt 1) idle8).pending = some (.encrypt 1) ∧
    (∀ i, i < 2 * (1 + 1) → ∀ m, m < Width.w8.bytes → idle8.mem.read (0x1000 + 8 * i + m) ≠ none) ∧
    (pendingOn (.encrypt 0) halfTable8).pending = some (.encrypt 0) ∧ 0 < 2 * (0 + 1) ∧ 0 < Width.w8.bytes ∧
    halfTable8.mem.read (0x1000 + 8 * 0 + 0) = none := by decide

theorem witness_DecryptCompletes :
    (pendingOn (.decrypt 1) idle8).pending = some (.decrypt 1) ∧
    (∀ i, i < 2 * (1 + 1) → ∀ m, m < Width.w8.bytes → idle8.mem.read (0x1000 + 8 * i + m) ≠ none) ∧
    (pendingOn (.decrypt 0) halfTable8).pending = some (.decrypt 0) ∧ 0 < 2 * (0 + 1) ∧ 0 < Width.w8.bytes ∧
    halfTable8.mem.read (0x1000 + 8 * 0 + 0) = none := by decide

theorem witness_ExpandKeyCompletes :
    (pendingOn (.expandKey 255) keyed16).pending = some (.expandKey 255) ∧ 255 ≤ 255 ∧ 511 < 2 * (255 + 1) ∧
    (∀ k, k < keyed16.keyLen.toNat → keyed16.mem.read (0x800 + 8 * k) ≠ none) ∧
    (pendingOn (.expandKey 0) unkeyed8).pending = some (.expandKey 0) ∧ 0 < unkeyed8.keyLen.toNat ∧
    unkeyed8.mem.read (0x800 + 8 * 0) = none ∧ 2 * (0 + 1) ≤ 2 ∧ 254 < 255 ∧
    ∀ i, i < 2 * (0 + 1) → ∀ m, m < Width.w8.bytes → 0x1010 ≠ 0x1000 + 8 * i + m := by decide

theorem witness_NonStoringCommandsFrame :
    (∃ t, exec (.encrypt 1) ⟨_, pendingOn (.encrypt 1) idle8⟩ = .next t) ∧
    (∃ t, exec (.decrypt 1) ⟨_, pendingOn (.decrypt 1) idle8⟩ = .next t) ∧
    (∃ t, exec (.rotl 1) ⟨_, idle⟩ = .next t) ∧ (∃ t, exec (.rotr 1) ⟨_, idle⟩ = .next t) :=
  ⟨⟨_, rfl⟩, ⟨_, rfl⟩, ⟨_, rfl⟩, ⟨_, rfl⟩⟩

theorem witness_NoCommandWritesTheKey :
    ∃ t, exec (.expandKey 1) ⟨_, pendingOn (.expandKey 1) keyed16⟩ = .next t := ⟨_, rfl⟩

theorem witness_AcceptedCommandRunsToDone :
    idle8.pending = none ∧ commandCheck (.encrypt 1) idle8 = none ∧ commandCheck (.decrypt 1) idle8 = none ∧
    commandCheck (.rotl 0) idle8 = none ∧ commandCheck (.rotr 0) idle8 = none ∧
    commandCheck (.expandKey 255) idle8 = none ∧ idle8.tableSpecified 1 = true ∧ idle8.keySpecified = true := by
  decide

theorem witness_DecryptAfterEncryptRestoresTheBlock :
    idle8.pending = none ∧ 2 * (1 + 1) ≤ idle8.sLen.toNat ∧ idle8.tableSpecified 1 = true := by decide

theorem witness_RotationMovesBits : 0 < Width.w8.bits ∧ 63 < Width.w64.bits := by decide

theorem witness_BlockBytesAreLittleEndian :
    (List.replicate 2 (0 : Byte)).length = 2 * Width.w8.bytes ∧
    ([0x21, 0xA5, 0xDB, 0xEE, 0x15, 0x4B, 0x8F, 0x6D] : List Byte).length = 2 * Width.w32.bytes := by decide

theorem witness_BufferLengthIsStated : 0 ≤ 255 ∧ 255 ≤ 255 := by decide

theorem witness_MixingIterationsAreBounded :
    0 ≤ 255 ∧ 255 ≤ 255 ∧ bufferLength .w32 8 ≤ 2 ∧ bufferLength .w8 0 ≤ 2 := by decide

theorem witness_PackIsLittleEndian : 0 < bufferLength .w64 0 ∧ 254 < bufferLength .w8 255 := by decide

theorem witness_InitIsAnArithmeticProgression : 0 < 1 ∧ 0 < 511 ∧ 511 < 512 := by decide

/-- Sequences that start and step as the mixing rule says, for W = 8, the empty key and r = 0. -/
def mixSeq : Nat → Word .w8 × Word .w8 × (Nat → Word .w8) × (Nat → Word .w8)
  | 0 => (0, 0, fun i => (initTable .w8 2).getD i 0, fun j => (pack .w8 (fun _ => 0) 0).getD j 0)
  | n + 1 =>
    let m := mixSeq n
    let ka := (m.2.2.1 (n % 2) + m.1 + m.2.1).rotateLeft 3
    let kb := (m.2.2.2 (n % 1) + ka + m.2.1).rotateLeft (ka + m.2.1).toNat
    (ka, kb, Function.update m.2.2.1 (n % 2) ka, Function.update m.2.2.2 (n % 1) kb)

theorem witness_ExpandedTableFollowsTheMixingRule :
    ∃ (ka kb : Nat → Word .w8) (sw lw : Nat → Nat → Word .w8),
      ka 0 = 0 ∧ kb 0 = 0 ∧
      (∀ i, i < 2 * (0 + 1) → sw 0 i = (initTable .w8 (2 * (0 + 1))).getD i 0) ∧
      (∀ j, j < bufferLength .w8 0 → lw 0 j = (pack .w8 (fun _ => 0) 0).getD j 0) ∧
      (∀ n, ka (n + 1) = (sw n (n % (2 * (0 + 1))) + ka n + kb n).rotateLeft 3) ∧
      (∀ n, kb (n + 1) =
        (lw n (n % bufferLength .w8 0) + ka (n + 1) + kb n).rotateLeft (ka (n + 1) + kb n).toNat) ∧
      (∀ n, sw (n + 1) = Function.update (sw n) (n % (2 * (0 + 1))) (ka (n + 1))) ∧
      (∀ n, lw (n + 1) = Function.update (lw n) (n % bufferLength .w8 0) (kb (n + 1))) :=
  ⟨fun n => (mixSeq n).1, fun n => (mixSeq n).2.1, fun n => (mixSeq n).2.2.1, fun n => (mixSeq n).2.2.2,
    rfl, rfl, fun _ _ => rfl, fun _ _ => rfl, fun _ => rfl, fun _ => rfl, fun _ => rfl, fun _ => rfl⟩

/-- Two keys that differ from K[b] on; two states that differ in K[3], above KEY_LEN = 3, and in S, A and B. -/
theorem witness_TableDependsOnlyOnTheKey :
    (∀ k, k < 3 → (fun _ => 0 : Nat → Byte) k = (fun k => if k < 3 then 0 else 1 : Nat → Byte) k) ∧
    1 ≤ 255 ∧ 3 < 2 * (1 + 1) ∧ (keyed16.writeKey 3 0x44).keyLen = keyed16.keyLen ∧
    keyed16.keySpecified = true ∧ (keyed16.writeKey 3 0x44).keySpecified = true ∧
    ∀ k, k < keyed16.keyLen.toNat → (keyed16.writeKey 3 0x44).readKey k = keyed16.readKey k :=
  ⟨fun k hk => by simp [hk], by decide, by decide, rfl, by decide, by decide, by decide⟩

theorem witness_EncFollowsTheRounds :
    ∃ x y : Nat → Word .w8, x 0 = 0x81 + 0 ∧ y 0 = 0x08 + 0 ∧
      (∀ i, 1 ≤ i → i ≤ 1 → x i = (x (i - 1) ^^^ y (i - 1)).rotateLeft (y (i - 1)).toNat + 0) ∧
      (∀ i, 1 ≤ i → i ≤ 1 → y i = (y (i - 1) ^^^ x i).rotateLeft (x i).toNat + 0) :=
  ⟨fun i => if i = 0 then (0x81 : BitVec 8) else (0x89 : BitVec 8),
    fun i => if i = 0 then (0x08 : BitVec 8) else (0x03 : BitVec 8), rfl, rfl,
    fun i h h' => by have hi : i = 1 := by omega
                     subst hi; rfl,
    fun i h h' => by have hi : i = 1 := by omega
                     subst hi; rfl⟩

theorem witness_DecFollowsTheRounds :
    ∃ x y : Nat → Word .w8, x 1 = (0x89 : BitVec 8) ∧ y 1 = (0x03 : BitVec 8) ∧
      (∀ i, 1 ≤ i → i ≤ 1 → y (i - 1) = (y i - 0).rotateRight (x i).toNat ^^^ x i) ∧
      (∀ i, 1 ≤ i → i ≤ 1 → x (i - 1) = (x i - 0).rotateRight (y (i - 1)).toNat ^^^ y (i - 1)) :=
  ⟨fun i => if i = 0 then (0x81 : BitVec 8) else (0x89 : BitVec 8),
    fun i => if i = 0 then (0x08 : BitVec 8) else (0x03 : BitVec 8), rfl, rfl,
    fun i h h' => by have hi : i = 1 := by omega
                     subst hi; rfl,
    fun i h h' => by have hi : i = 1 := by omega
                     subst hi; rfl⟩

/-- Two tables that differ above S[2r+1]; two states that differ in S[4], K and KEY_LEN. -/
theorem witness_TransformsReadOnlyTheirTable :
    (∀ i, i ≤ 2 * 1 + 1 → (fun _ => 0 : Nat → Word .w8) i = (fun i => if i ≤ 3 then 0 else 1 : Nat → Word .w8) i) ∧
    ∃ s' : Inst .w8, s'.a = idle8.a ∧ s'.b = idle8.b ∧ s'.keyLen ≠ idle8.keyLen ∧
      idle8.tableSpecified 1 = true ∧ s'.tableSpecified 1 = true ∧
      ∀ i, i ≤ 2 * 1 + 1 → s'.readTable i = idle8.readTable i := by
  refine ⟨fun i hi => by simp [show i ≤ 3 by omega],
    (idle8.writeTable 4 [(9 : BitVec 8)]).writeKeyLen 7, rfl, rfl, by decide, by decide, by decide, fun i hi => ?_⟩
  rw [writeKeyLen_readTable, Inst.readTable_writeTable_other _ (.inl (by omega))]

theorem witness_HostReadValues :
    idle.status.busy = false ∧ 254 < 255 ∧ 511 < 512 ∧ memRead 0x0000 idle = .ok 0xFF20 ∧
    memRead 0x0010 (pendingOn (.rotl 0) idle) = .ok 0x01 := by decide

theorem witness_BusyLockRefusesAccesses :
    (pendingOn (.rotl 0) idle).status.busy = true ∧
    [0x0020#13, 0x0030#13, 0x1000#13, 0x1FF8#13].all (fun addr =>
      addr.toNat % 8 = 0 ∧ (0x0020 ≤ addr.toNat ∧ addr.toNat ≤ 0x0030 ∨ 0x1000 ≤ addr.toNat)) = true ∧
    [0x0000#13, 0x0018#13, 0x0800#13, 0x0FF0#13].all (fun addr =>
      addr.toNat % 8 = 0 ∧ (addr.toNat ≤ 0x0018 ∨ 0x0800 ≤ addr.toNat ∧ addr.toNat < 0x0FF8)) = true := by decide

theorem witness_BadAddressesGetBusError :
    (0x0004#13).toNat % 8 ≠ 0 ∧ (0x1FFF#13).toNat % 8 ≠ 0 ∧
    [0x0038#13, 0x07F8#13, 0x0FF8#13].all (fun addr =>
      addr.toNat % 8 = 0 ∧ (0x0038 ≤ addr.toNat ∧ addr.toNat ≤ 0x07F8 ∨ addr.toNat = 0x0FF8)) = true := by decide

theorem witness_HostWriteEffects :
    idle.status.busy = false ∧ (512#64).toNat % 1024 ≤ 512 ∧ 512 < (513#64).toNat % 1024 ∧ 254 < 255 ∧ 511 < 512 ∧
    0x0800 ≠ 0x0800 + 8 * 254 ∧ ∀ m, m < Width.w32.bytes → 0x1000 ≠ 0x1000 + 8 * 511 + m := by
  decide

theorem witness_HostWriteChangesOneAddress :
    ∃ t, 0x1FF8#13 ≠ 0x0008 ∧ 0x1FF0#13 ≠ 0x1FF8#13 ∧ hostWrite 0x1FF8 5 false ⟨_, idle⟩ = .next t :=
  ⟨_, by decide, by decide, rfl⟩

theorem witness_ReadBackAfterWrite :
    idle.status.busy = false ∧
    [0x0800#13, 0x0FF0#13].all (fun addr => addr.toNat % 8 = 0 ∧ 0x0800 ≤ addr.toNat ∧ addr.toNat < 0x0FF8) = true ∧
    [0x1000#13, 0x1FF8#13].all (fun addr => addr.toNat % 8 = 0 ∧ 0x1000 ≤ addr.toNat) = true := by decide

theorem witness_ReadsHaveNoSideEffect :
    (∃ t, hostRead 0x0028 false ⟨_, idle⟩ = .next t) ∧ (∃ t, hostRead 0x0004 true ⟨_, idle⟩ = .next t) :=
  ⟨⟨_, rfl⟩, ⟨_, rfl⟩⟩

theorem witness_WaitPollsStatus :
    (hostAt .wait (pendingOn (.rotl 0) idle)).prog = .wait :: [] ∧
    (hostAt .wait (pendingOn (.rotl 0) idle)).status.busy = true ∧
    (hostAt .wait idle).prog = .wait :: [] ∧ (hostAt .wait idle).status.busy = false := by decide

end Sys2Proof.Tests
end

section
/-! ### Bytes, integers and Words

The byte list of a Word and its little-endian integer determine each other
(20_memory.md R60, R61), and with them a block and its register pair (10_state.md R24). -/

namespace Sys2Proof

/-- The integer of a byte list, in positional form: byte lane k weighs 2^(8k) (20_memory.md R60). -/
theorem natOfBytes_eq_sum (xs : List Byte) :
    natOfBytes xs = ∑ k ∈ Finset.range xs.length, (xs.getD k 0).toNat * 2 ^ (8 * k) := by
  induction xs with
  | nil => simp [natOfBytes]
  | cons x xs ih =>
    rw [natOfBytes, ih, List.length_cons, Finset.sum_range_succ', Finset.mul_sum, Nat.add_comm]
    congr 1
    · refine Finset.sum_congr rfl fun k _ => ?_
      rw [List.getD_cons_succ]
      ring
    · simp

/-- Bytes are what their integer is written out as. -/
theorem bytesOfNat_natOfBytes (xs : List Byte) : bytesOfNat xs.length (natOfBytes xs) = xs := by
  induction xs with
  | nil => rfl
  | cons x xs ih =>
    have hx := x.isLt
    have low : BitVec.ofNat 8 (x.toNat + 256 * natOfBytes xs) = x :=
      BitVec.eq_of_toNat_eq (by rw [BitVec.toNat_ofNat]; omega)
    have rest : (x.toNat + 256 * natOfBytes xs) / 256 = natOfBytes xs := by omega
    simp only [natOfBytes, List.length_cons, bytesOfNat, low, rest, ih]

end Sys2Proof

namespace Sys2Proof.Machine

open Sys2Proof

variable {w : Width} {xs : List Byte}

/-- The integer of u bytes fits a Word, so the conversion truncates nothing (40_word_datapath.md R109). -/
theorem natOfBytes_lt_of_length (h : xs.length = w.bytes) : natOfBytes xs < 2 ^ w.bits := by
  have := natOfBytes_lt xs
  rwa [h, show (256 : Nat) = 2 ^ 8 from rfl, ← Nat.pow_mul, ← Width.bits_eq] at this

/-- The Word of u bytes: it exists, it is their little-endian integer, and its bytes are those bytes
(20_memory.md R61). -/
theorem wordOfBytes?_spec (h : xs.length = w.bytes) :
    ∃ x : Word w, wordOfBytes? w xs = some x ∧ x.toNat = natOfBytes xs ∧ bytesOfWord x = xs := by
  obtain ⟨_, hx⟩ | ⟨hne, _⟩ := wordOfBytes?_cases w xs
  · have value : (BitVec.ofNat w.bits (natOfBytes xs)).toNat = natOfBytes xs := by
      rw [BitVec.toNat_ofNat, Nat.mod_eq_of_lt (natOfBytes_lt_of_length h)]
    exact ⟨_, hx, value, by rw [bytesOfWord, value, ← h, bytesOfNat_natOfBytes]⟩
  · exact absurd h hne

/-- The block of two Words' bytes is the two Words. -/
theorem blockOfBytes?_eq_some {a b : Word w} (ha : wordOfBytes? w (xs.take w.bytes) = some a)
    (hb : wordOfBytes? w (xs.drop w.bytes) = some b) : blockOfBytes? w xs = some (a, b) := by
  simp only [blockOfBytes?, ha, hb]

/-- Settles O40: each half of the block is u bytes and so one Word, and the two halves make up the block. -/
theorem blockBytesAreLittleEndian : Obligations.BlockBytesAreLittleEndian := by
  intro w xs h
  have lenA : (xs.take w.bytes).length = w.bytes := by rw [List.length_take]; omega
  have lenB : (xs.drop w.bytes).length = w.bytes := by rw [List.length_drop]; omega
  obtain ⟨a, ha, valueA, bytesA⟩ := wordOfBytes?_spec lenA
  obtain ⟨b, hb, valueB, bytesB⟩ := wordOfBytes?_spec lenB
  refine ⟨a, b, blockOfBytes?_eq_some ha hb, ?_, ?_, ?_⟩
  · rw [valueA, natOfBytes_eq_sum, lenA]
    refine Finset.sum_congr rfl fun k hk => ?_
    simp only [List.getD_eq_getElem?_getD, List.getElem?_take_of_lt (Finset.mem_range.1 hk)]
  · rw [valueB, natOfBytes_eq_sum, lenB]
    simp only [List.getD_eq_getElem?_getD, List.getElem?_drop]
  · rw [bytesOfBlock, bytesA, bytesB, List.take_append_drop]

end Sys2Proof.Machine
end

section
/-! ### The command word's fields

The decoder and acceptance depend on OPC and ROUNDS only (30_encoding.md R81, R83), and OPC alone
says whether the word is a command (R84, R85). -/

namespace Sys2Proof

variable {v v' : BitVec 64}

/-- The mask of the bits that are not reserved keeps OPC (30_encoding.md R81). -/
@[simp] theorem opcField_clearReserved (v : BitVec 64) :
    opcField (v &&& 0x0000000000FFFF0F#64) = opcField v := by
  have mask : BitVec.extractLsb' 0 4 0x0000000000FFFF0F#64 = BitVec.allOnes 4 := by decide
  rw [opcField, BitVec.extractLsb'_and, mask, BitVec.and_allOnes, opcField]

/-- The mask of the bits that are not reserved keeps ROUNDS (30_encoding.md R81). -/
@[simp] theorem roundsField_clearReserved (v : BitVec 64) :
    roundsField (v &&& 0x0000000000FFFF0F#64) = roundsField v := by
  have mask : BitVec.extractLsb' 8 16 0x0000000000FFFF0F#64 = BitVec.allOnes 16 := by decide
  rw [roundsField, BitVec.extractLsb'_and, mask, BitVec.and_allOnes, roundsField]

/-- The decoder looks at the two fields only. -/
theorem decodeWord_congr (hopc : opcField v = opcField v') (hrounds : roundsField v = roundsField v') :
    decodeWord v = decodeWord v' := by
  rw [decodeWord, hopc, hrounds, decodeWord]

/-- A word with the fields of a command decodes to that command (30_encoding.md R84). -/
theorem decodeWord_of_fields {i : Instr} (hopc : opcField v = i.opcode)
    (hrounds : (roundsField v).toNat = i.rounds) : decodeWord v = .ok i := by
  rw [decodeWord, hopc, hrounds]
  cases i <;> rfl

/-- A word whose OPC is no command's decodes to none (30_encoding.md R85). -/
theorem decodeWord_of_illegal (h : opcField v = 0 ∨ 6 ≤ (opcField v).toNat) :
    decodeWord v = .error (.illegalOpcode (opcField v)) := by
  have notCommand : (opcField v).toNat = 0 ∨ 6 ≤ (opcField v).toNat := h.imp_left (congrArg BitVec.toNat)
  unfold decodeWord
  split
  case h_6 => rfl
  all_goals omega

end Sys2Proof

namespace Sys2Proof.Machine

open Sys2Proof

variable {v v' : BitVec 64}

/-- Acceptance depends on what the word decodes to only. -/
theorem acceptWord_congr (h : decodeWord v = decodeWord v') (s : State) : acceptWord v s = acceptWord v' s := by
  rw [acceptWord, h, acceptWord]

/-- A word that decodes to no command is reported as IllegalCommand (60_exceptions.md R203). -/
theorem acceptWord_of_error {e : DecodeError} (h : decodeWord v = .error e) (s : State) :
    acceptWord v s = .next (s.map (raiseError .illegalCommand)) := by
  rw [acceptWord, h]

/-- Settles O2: clearing the reserved bits keeps both fields, and the fields are all that decoder and core look at. -/
theorem reservedBitsAreIgnored : Obligations.ReservedBitsAreIgnored := by
  intro v
  have same : decodeWord v = decodeWord (v &&& 0x0000000000FFFF0F#64) :=
    decodeWord_congr (opcField_clearReserved v).symm (roundsField_clearReserved v).symm
  exact ⟨same, acceptWord_congr same⟩

/-- Settles O3: an OPC of no command is a decode error, which acceptance reports in STATUS; each other OPC is its
command's. -/
theorem illegalOpcodesAreRejected : Obligations.IllegalOpcodesAreRejected := by
  intro v
  refine ⟨fun illegal w s => acceptWord_of_error (decodeWord_of_illegal illegal) ⟨w, s⟩, ?_, ?_, ?_, ?_, ?_⟩ <;>
    exact fun hopc => decodeWord_of_fields hopc rfl

end Sys2Proof.Machine
end

section
/-! ### Rotation bit by bit

Where each bit of a rotated Word comes from (41_rotation.md R120, R121). That the two rotations undo each other, that
one is given by the other, and that both keep the number of 1 bits (R122, R124) is read off the bits' numbers. -/

namespace Sys2Proof.Machine

open Sys2Proof

variable {w : Width} {n W : Nat}

/-- y places up and then W - (y mod W) places up is a number of whole turns. -/
theorem add_add_sub_mod (hn : n < W) (y : Nat) : (n + y + (W - y % W)) % W = n := by
  have turns : n + y + (W - y % W) = n + W * (y / W + 1) := by
    have := Nat.mod_lt y (n.zero_le.trans_lt hn)
    have := Nat.div_add_mod y W
    rw [Nat.mul_add]
    omega
  rw [turns, Nat.add_mul_mod_self_left, Nat.mod_eq_of_lt hn]

/-- From y bits up back to the bit itself. -/
theorem mod_add_sub_mod (hn : n < W) (y : Nat) : ((n + y) % W + (W - y % W)) % W = n := by
  rw [Nat.mod_add_mod, add_add_sub_mod hn]

/-- From y bits down back to the bit itself. -/
theorem sub_mod_add_mod (hn : n < W) (y : Nat) : ((n + (W - y % W)) % W + y) % W = n := by
  rw [Nat.mod_add_mod, Nat.add_right_comm, add_add_sub_mod hn]

/-- Down by the rest of the turn is up by y. -/
theorem add_sub_sub_mod (hW : 0 < W) (n y : Nat) : (n + (W - (W - y % W) % W % W)) % W = (n + y) % W := by
  have hy := Nat.mod_lt y hW
  rw [Nat.mod_mod, ← Nat.add_mod_mod n y]
  obtain zero | pos := Nat.eq_zero_or_pos (y % W)
  · rw [zero, Nat.sub_zero, Nat.mod_self, Nat.sub_zero, Nat.add_mod_right, Nat.add_zero]
  · rw [Nat.mod_eq_of_lt (by omega : W - y % W < W), Nat.sub_sub_self hy.le]

/-- Bit n of ROTL_W(x, y) is bit n - y of x, modulo W (41_rotation.md R120). -/
theorem getLsbD_rotlW (x : Word w) (y : Nat) (hn : n < w.bits) :
    (rotlW x y).getLsbD n = x.getLsbD ((n + (w.bits - y % w.bits)) % w.bits) := by
  have hy := Nat.mod_lt y w.bits_pos
  rw [rotlW_eq_rotateLeft, BitVec.getLsbD_rotateLeft, Bool.cond_decide, decide_eq_true hn, Bool.true_and]
  generalize y % w.bits = r at hy
  split
  case isTrue wraps => rw [Nat.mod_eq_of_lt (by omega), Nat.add_comm]
  case isFalse moves =>
    have whole : n + (w.bits - r) = n - r + w.bits := by omega
    rw [whole, Nat.add_mod_right, Nat.mod_eq_of_lt (by omega)]

/-- Bit n of ROTR_W(x, y) is bit n + y of x, modulo W (41_rotation.md R121). -/
theorem getLsbD_rotrW (x : Word w) (y : Nat) (hn : n < w.bits) :
    (rotrW x y).getLsbD n = x.getLsbD ((n + y) % w.bits) := by
  have hy := Nat.mod_lt y w.bits_pos
  rw [rotrW_eq_rotateRight, BitVec.getLsbD_rotateRight, Bool.cond_decide, decide_eq_true hn, Bool.true_and,
    ← Nat.add_mod_mod]
  generalize y % w.bits = r at hy
  split
  case isTrue moves => rw [Nat.mod_eq_of_lt (by omega), Nat.add_comm]
  case isFalse wraps =>
    have whole : n + r = n - (w.bits - r) + w.bits := by omega
    rw [whole, Nat.add_mod_right, Nat.mod_eq_of_lt (by omega)]

@[simp] theorem rotrW_rotlW (x : Word w) (y : Nat) : rotrW (rotlW x y) y = x :=
  BitVec.eq_of_getLsbD_eq fun n hn => by
    rw [getLsbD_rotrW _ _ hn, getLsbD_rotlW _ _ (Nat.mod_lt _ w.bits_pos), mod_add_sub_mod hn]

@[simp] theorem rotlW_rotrW (x : Word w) (y : Nat) : rotlW (rotrW x y) y = x :=
  BitVec.eq_of_getLsbD_eq fun n hn => by
    rw [getLsbD_rotlW _ _ hn, getLsbD_rotrW _ _ (Nat.mod_lt _ w.bits_pos), sub_mod_add_mod hn]

/-- Settles O37: bit by bit, the one rotation reads the bit that the other has moved away. -/
theorem rotationsAreInverse : Obligations.RotationsAreInverse :=
  fun _ x y => ⟨rotrW_rotlW x y, rotlW_rotrW x y⟩

/-- ROTR_W is the left rotation by the rest of the turn (41_rotation.md R124). -/
theorem rotrW_eq_rotlW (x : Word w) (y : Nat) : rotrW x y = rotlW x ((w.bits - y % w.bits) % w.bits) :=
  BitVec.eq_of_getLsbD_eq fun n hn => by
    rw [getLsbD_rotrW _ _ hn, getLsbD_rotlW _ _ hn, add_sub_sub_mod w.bits_pos]

theorem rotlW_of_mod_eq_zero (x : Word w) {y : Nat} (h : y % w.bits = 0) : rotlW x y = x := dif_pos h

theorem rotrW_of_mod_eq_zero (x : Word w) {y : Nat} (h : y % w.bits = 0) : rotrW x y = x := dif_pos h

/-- Settles O38: the amount is taken modulo W, where a multiple of W is 0. -/
theorem rotationByMultiplesIsIdentity : Obligations.RotationByMultiplesIsIdentity :=
  fun w x k =>
    have whole : k * w.bits % w.bits = 0 := Nat.mul_mod_left k w.bits
    ⟨rotlW_of_mod_eq_zero x whole, rotrW_of_mod_eq_zero x whole⟩

/-- The numbers of the bits of a Word that are 1. -/
def onesOf (x : Word w) : Finset Nat := (Finset.range w.bits).filter (fun n => x.getLsbD n = true)

theorem mem_onesOf {x : Word w} : n ∈ onesOf x ↔ n < w.bits ∧ x.getLsbD n = true := by
  rw [onesOf, Finset.mem_filter, Finset.mem_range]

/-- The 1 bits of ROTR_W(x, y) and those of x, y bits up, correspond one to one. -/
theorem card_onesOf_rotrW (x : Word w) (y : Nat) : (onesOf (rotrW x y)).card = (onesOf x).card := by
  refine Finset.card_nbij' (fun n => (n + y) % w.bits) (fun n => (n + (w.bits - y % w.bits)) % w.bits) ?_ ?_ ?_ ?_
  · intro n one
    obtain ⟨hn, hx⟩ := mem_onesOf.1 one
    exact mem_onesOf.2 ⟨Nat.mod_lt _ w.bits_pos, getLsbD_rotrW x y hn ▸ hx⟩
  · intro n one
    obtain ⟨hn, hx⟩ := mem_onesOf.1 one
    refine mem_onesOf.2 ⟨Nat.mod_lt _ w.bits_pos, ?_⟩
    rw [getLsbD_rotrW x y (Nat.mod_lt _ w.bits_pos), sub_mod_add_mod hn, hx]
  · exact fun n one => mod_add_sub_mod (mem_onesOf.1 one).1 y
  · exact fun n one => sub_mod_add_mod (mem_onesOf.1 one).1 y

/-- Rotating back, to the right, keeps the number of 1 bits and gives x. -/
theorem card_onesOf_rotlW (x : Word w) (y : Nat) : (onesOf (rotlW x y)).card = (onesOf x).card := by
  rw [← card_onesOf_rotrW (rotlW x y) y, rotrW_rotlW]

/-- Settles O39: rotation to the right is rotation to the left by the rest of the turn, and moving bits keeps their
number. -/
theorem rotationsAreRelated : Obligations.RotationsAreRelated :=
  fun _ x y => ⟨rotrW_eq_rotlW x y, card_onesOf_rotlW x y, card_onesOf_rotrW x y⟩

end Sys2Proof.Machine
end

section
/-! ### The key schedule's lengths

The buffer length is a rounded-up quotient (42_key_schedule.md R142), grows with the key length, and with the table
length bounds the mixing iterations (R147). -/

namespace Sys2Proof.Machine

open Sys2Proof

/-- The ceiling of a rational quotient of naturals is their quotient rounded up. -/
theorem ceil_div_eq_ceilDiv (n : Nat) {d : Nat} (hd : 0 < d) : Nat.ceil ((n : ℚ) / d) = n ⌈/⌉ d := by
  refine eq_of_forall_ge_iff fun k => ?_
  rw [Nat.ceil_le, div_le_iff₀ (by exact_mod_cast hd), mul_comm, ceilDiv_le_iff_le_mul hd]
  exact_mod_cast Iff.rfl

/-- The buffer length counts the Words that 8b bits need (42_key_schedule.md R142). -/
theorem bufferLength_eq_ceil_bits (w : Width) (b : Nat) :
    bufferLength w b = max 1 (Nat.ceil ((8 * b : ℚ) / w.bits)) := by
  have quotient := ceil_div_eq_ceilDiv (8 * b) w.bits_pos
  push_cast at quotient
  rw [quotient, Nat.ceilDiv_eq_add_pred_div, bufferLength]

/-- Bits over bits of a Word is bytes over bytes of a Word. -/
theorem bits_div_bits_eq_bytes_div_bytes (w : Width) (b : Nat) : (8 * b : ℚ) / w.bits = (b : ℚ) / w.bytes := by
  rw [w.bits_eq, Nat.cast_mul, Nat.cast_ofNat, mul_div_mul_left _ _ (by norm_num)]

/-- A longer key needs no shorter buffer. -/
theorem bufferLength_mono (w : Width) : Monotone (bufferLength w) :=
  fun _ _ h => max_le_max le_rfl (Nat.div_le_div_right (by omega))

/-- C_MAX is the buffer length of the longest key (00_scope.md R9). -/
theorem bufferLength_keyMax (w : Width) : bufferLength w Config.keyMax = Config.bufferMax w := rfl

theorem bufferLength_le_bufferMax (w : Width) {b : Nat} (hb : b ≤ 255) : bufferLength w b ≤ Config.bufferMax w :=
  (bufferLength_mono w hb).trans_eq (bufferLength_keyMax w)

/-- No width needs more than a word of buffer per byte of the longest key. -/
theorem bufferMax_le (w : Width) : Config.bufferMax w ≤ 255 := by
  cases w <;> decide

/-- Settles O41: both quotients are the rounded-up one of the definition, C_MAX is the longest key's length, and the
rule's table is the definition evaluated. -/
theorem bufferLengthIsStated : Obligations.BufferLengthIsStated := by
  refine ⟨fun w b => ⟨bufferLength_eq_ceil_bits w b, ?_, fun hb => ?_⟩, ?_⟩
  · rw [bufferLength_eq_ceil_bits, bits_div_bits_eq_bytes_div_bytes]
  · exact ⟨bufferLength_pos w b, bufferLength_le_bufferMax w hb⟩
  · decide

/-- Settles O42: the table has 2 to 512 words, and the buffer never more than 255. -/
theorem mixingIterationsAreBounded : Obligations.MixingIterationsAreBounded := by
  intro w r b hr hb
  have buffer : bufferLength w b ≤ 255 := (bufferLength_le_bufferMax w hb).trans (bufferMax_le w)
  refine ⟨rfl, ?_, ?_, fun hr0 hc => ?_, fun hr255 => ?_⟩ <;> simp only [mixCount, tableLength] <;> omega

end Sys2Proof.Machine
end

section
/-! ### EXPAND_KEY: acceptance and what the table depends on

The check looks at ROUNDS only (42_key_schedule.md R146), and the expansion looks at no key byte but K[0..b-1]
(R148), because PACK alone reads the key. -/

namespace Sys2Proof.Machine

open Sys2Proof

variable {w : Width}

/-- The check fails for EXPAND_KEY above R_MAX, always with the same error (42_key_schedule.md R146). -/
theorem checkExpandKey_some {r : Nat} (hr : 255 < r) : checkExpandKey r = some .invalidRounds := if_pos hr

/-- Settles O20: the check decides between the error report and acceptance, and it depends on ROUNDS only. -/
theorem expandKeyAcceptance : Obligations.ExpandKeyAcceptance := by
  intro w s r idle
  constructor
  · intro hr
    have fails : commandCheck (.expandKey r) s = some .invalidRounds := checkExpandKey_some hr
    exact exec_raises idle fails
  · intro hr
    have passes : commandCheck (.expandKey r) s = none := checkExpandKey_none.2 hr
    exact exec_accepts idle passes

/-- The n turns of PACK from index n-1 down read the key below n only (42_key_schedule.md R143). -/
theorem packLoop_congr {key key' : Nat → Byte} {n : Nat} (same : ∀ k, k < n → key k = key' k) (l : List (Word w)) :
    packLoop key n l = packLoop key' n l := by
  induction n generalizing l with
  | zero => rfl
  | succ n ih =>
    rw [packLoop, packLoop, same n n.lt_succ_self]
    exact ih (fun k hk => same k (hk.trans n.lt_succ_self)) _

/-- The expansion reads the key below b only (42_key_schedule.md R148). -/
theorem expandedTable_congr {key key' : Nat → Byte} {b : Nat} (same : ∀ k, k < b → key k = key' k) (r : Nat) :
    expandedTable w key b r = expandedTable w key' b r := by
  have packed : pack w key b = pack w key' b := packLoop_congr same _
  rw [expandedTable, packed, expandedTable]

/-- Settles O46: INIT and MIX are given the packed key only, and EXPAND_KEY writes the table so expanded. -/
theorem tableDependsOnlyOnTheKey : Obligations.TableDependsOnlyOnTheKey := by
  refine ⟨fun w key key' b r same => expandedTable_congr same r, ?_⟩
  intro w s s' r i _ hi hlen hspec hspec' same
  rw [readTable_expandKeyEffect hspec' hi, readTable_expandKeyEffect hspec hi, hlen, expandedTable_congr same]

end Sys2Proof.Machine
end

section
/-! ### The block transforms

A round of DEC undoes the round of ENC of the same number, half-round by half-round (43_block_transforms.md R172), and
both transforms are their rounds in a row between the whitening steps (R170, R171). Round i reads S[2i] and S[2i+1]
only (R174). -/

namespace Sys2Proof.Machine

open Sys2Proof

variable {w : Width}

/-! #### What undoes what -/

@[simp] theorem subW_addW (x k : Word w) : subW (addW x k) k = x := BitVec.add_sub_cancel x k

@[simp] theorem addW_subW (x k : Word w) : addW (subW x k) k = x := BitVec.sub_add_cancel x k

@[simp] theorem xorW_xorW (x y : Word w) : xorW (xorW x y) y = x := by
  simp only [xorW, xor_cancel_right]

/-- In both half-rounds the undone steps meet in reverse order: the table word, the rotation, the exclusive or. -/
@[simp] theorem decRound_encRound (table : Nat → Word w) (i : Nat) (ab : Word w × Word w) :
    decRound table i (encRound table i ab) = ab := by
  simp only [decRound, encRound, subW_addW, rotrW_rotlW, xorW_xorW]

@[simp] theorem encRound_decRound (table : Nat → Word w) (i : Nat) (ab : Word w × Word w) :
    encRound table i (decRound table i ab) = ab := by
  simp only [decRound, encRound, xorW_xorW, rotlW_rotrW, addW_subW]

/-- DEC's rounds run downwards, so the last round of ENC is undone first. -/
@[simp] theorem decRounds_encRounds (table : Nat → Word w) (n : Nat) (ab : Word w × Word w) :
    decRounds table n (encRounds table n ab) = ab := by
  induction n with
  | zero => rfl
  | succ n ih => rw [encRounds, decRounds, decRound_encRound, ih]

@[simp] theorem encRounds_decRounds (table : Nat → Word w) (n : Nat) (ab : Word w × Word w) :
    encRounds table n (decRounds table n ab) = ab := by
  induction n generalizing ab with
  | zero => rfl
  | succ n ih => rw [decRounds, encRounds, ih, encRound_decRound]

@[simp] theorem dec_enc (table : Nat → Word w) (r : Nat) (ab : Word w × Word w) :
    dec table r (enc table r ab) = ab := by
  simp only [dec, enc, decRounds_encRounds, subW_addW]

@[simp] theorem enc_dec (table : Nat → Word w) (r : Nat) (ab : Word w × Word w) :
    enc table r (dec table r ab) = ab := by
  simp only [dec, enc, addW_subW, Prod.mk.eta, encRounds_decRounds]

/-- Settles O49: the rounds undo each other, and so do the whitening steps around them. -/
theorem encAndDecAreInverse : Obligations.EncAndDecAreInverse :=
  fun _ table r ab => ⟨dec_enc table r ab, enc_dec table r ab⟩

/-! #### The rule of a round, followed along a sequence of blocks -/

variable {table table' : Nat → Word w}

theorem enc_zero (table : Nat → Word w) (a b : Word w) : enc table 0 (a, b) = (a + table 0, b + table 1) := rfl

theorem dec_zero (table : Nat → Word w) (a b : Word w) : dec table 0 (a, b) = (a - table 0, b - table 1) := rfl

/-- Settles O50: no round stands beside the whitening. -/
theorem zeroRoundsIsWhitening : Obligations.ZeroRoundsIsWhitening :=
  fun _ table a b => ⟨enc_zero table a b, dec_zero table a b⟩

/-- Round i of ENC in the bit-vector library's words (43_block_transforms.md R170). -/
theorem encRound_eq_of_rule {i : Nat} {a b a' b' : Word w}
    (ha : a' = (a ^^^ b).rotateLeft b.toNat + table (2 * i))
    (hb : b' = (b ^^^ a').rotateLeft a'.toNat + table (2 * i + 1)) : encRound table i (a, b) = (a', b') := by
  simp only [encRound, addW, xorW, rotlW_eq_rotateLeft, ← ha, ← hb]

/-- Round i of DEC in the bit-vector library's words (43_block_transforms.md R171). -/
theorem decRound_eq_of_rule {i : Nat} {a b a' b' : Word w}
    (hb : b' = (b - table (2 * i + 1)).rotateRight a.toNat ^^^ a)
    (ha : a' = (a - table (2 * i)).rotateRight b'.toNat ^^^ b') : decRound table i (a, b) = (a', b') := by
  simp only [decRound, subW, xorW, rotrW_eq_rotateRight, ← hb, ← ha]

/-- A sequence of blocks in which every block is the round of its number of the one before is what ENC's rounds run
through. -/
theorem encRounds_of_steps {z : Nat → Word w × Word w} {n : Nat}
    (steps : ∀ i, i < n → encRound table (i + 1) (z i) = z (i + 1)) : encRounds table n (z 0) = z n := by
  induction n with
  | zero => rfl
  | succ n ih => rw [encRounds, ih fun i hi => steps i (hi.trans n.lt_succ_self), steps n n.lt_succ_self]

/-- The same downwards: DEC's rounds run through the sequence from its block n to its block 0. -/
theorem decRounds_of_steps {z : Nat → Word w × Word w} {n : Nat}
    (steps : ∀ i, i < n → decRound table (i + 1) (z (i + 1)) = z i) : decRounds table n (z n) = z 0 := by
  induction n with
  | zero => rfl
  | succ n ih => rw [decRounds, steps n n.lt_succ_self, ih fun i hi => steps i (hi.trans n.lt_succ_self)]

/-- Settles O47: the sequence starts with the whitened block, and each of its steps is a round of ENC. -/
theorem encFollowsTheRounds : Obligations.EncFollowsTheRounds := by
  intro w table r a b x y hx0 hy0 hx hy
  have rounds : encRounds table r (x 0, y 0) = (x r, y r) :=
    encRounds_of_steps (z := fun i => (x i, y i)) fun i hi =>
      encRound_eq_of_rule (hx (i + 1) i.succ_pos hi) (hy (i + 1) i.succ_pos hi)
  rw [hx0, hy0] at rounds
  exact rounds

/-- Settles O48: each step of the sequence is a round of DEC, and the un-whitening is applied to its block 0. -/
theorem decFollowsTheRounds : Obligations.DecFollowsTheRounds := by
  intro w table r a b x y hxr hyr hy hx
  have rounds : decRounds table r (x r, y r) = (x 0, y 0) :=
    decRounds_of_steps (z := fun i => (x i, y i)) fun i hi =>
      decRound_eq_of_rule (hy (i + 1) i.succ_pos hi) (hx (i + 1) i.succ_pos hi)
  rw [← hxr, ← hyr, dec, rounds]
  rfl

/-! #### Which table words are read -/

theorem encRound_congr {i : Nat} (even : table (2 * i) = table' (2 * i))
    (odd : table (2 * i + 1) = table' (2 * i + 1)) : encRound table i = encRound table' i := by
  funext ab
  rw [encRound, even, odd, encRound]

theorem decRound_congr {i : Nat} (even : table (2 * i) = table' (2 * i))
    (odd : table (2 * i + 1) = table' (2 * i + 1)) : decRound table i = decRound table' i := by
  funext ab
  rw [decRound, even, odd, decRound]

theorem encRounds_congr {n : Nat} (same : ∀ i, i ≤ 2 * n + 1 → table i = table' i) :
    encRounds table n = encRounds table' n := by
  induction n with
  | zero => rfl
  | succ n ih =>
    funext ab
    rw [encRounds, encRounds, ih fun i hi => same i (by omega), encRound_congr (same _ (by omega)) (same _ le_rfl)]

theorem decRounds_congr {n : Nat} (same : ∀ i, i ≤ 2 * n + 1 → table i = table' i) :
    decRounds table n = decRounds table' n := by
  induction n with
  | zero => rfl
  | succ n ih =>
    funext ab
    rw [decRounds, decRounds, ih fun i hi => same i (by omega), decRound_congr (same _ (by omega)) (same _ le_rfl)]

/-- ENC reads S[0..2r+1] only (43_block_transforms.md R174). -/
theorem enc_congr {r : Nat} (same : ∀ i, i ≤ 2 * r + 1 → table i = table' i) : enc table r = enc table' r := by
  funext ab
  rw [enc, encRounds_congr same, same 0 (by omega), same 1 (by omega), enc]

/-- DEC reads S[0..2r+1] only (43_block_transforms.md R174). -/
theorem dec_congr {r : Nat} (same : ∀ i, i ≤ 2 * r + 1 → table i = table' i) : dec table r = dec table' r := by
  funext ab
  rw [dec, decRounds_congr same, same 0 (by omega), same 1 (by omega), dec]

/-- With S[0..2r+1] specified a block command writes its result (43_block_transforms.md R176, R177). -/
theorem blockEffect_of_specified {r : Nat} {s : Inst w} (hspec : s.tableSpecified r = true)
    (result : Word w × Word w) : blockEffect r result s = s.writeBlock result := if_pos hspec

/-- Settles O51: the transforms are functions of S[0..2r+1] and the block, and with a specified table the commands
write what the transforms give. -/
theorem transformsReadOnlyTheirTable : Obligations.TransformsReadOnlyTheirTable := by
  refine ⟨fun w table table' r ab same => ⟨by rw [enc_congr same], by rw [dec_congr same]⟩, ?_⟩
  intro w s s' r ha hb hspec hspec' same
  simp only [encryptEffect, decryptEffect, blockEffect_of_specified hspec, blockEffect_of_specified hspec',
    writeBlock_a, writeBlock_b, ha, hb, enc_congr same, dec_congr same, and_self]

end Sys2Proof.Machine
end

section
/-! ### ENCRYPT and DECRYPT: acceptance

The check compares the length of the table that ROUNDS asks for with S_LEN, on integers (43_block_transforms.md R175,
60_exceptions.md R202). -/

namespace Sys2Proof.Machine

open Sys2Proof

variable {w : Width}

/-- The check fails for a block command whose table is longer than S_LEN, always with the same error
(60_exceptions.md R202). -/
theorem checkBlock_some {r : Nat} {s : Inst w} (short : s.sLen.toNat < 2 * (r + 1)) :
    checkBlock r s = some .tableTooShort := if_pos short

/-- After reset no table is long enough: S_LEN is 0, and every round count needs at least two words. -/
theorem resetStep_sLen_lt (s : Inst w) (r : Nat) : (resetStep s).sLen.toNat < 2 * (r + 1) := by
  rw [resetStep_sLen]
  exact Nat.mul_pos two_pos r.succ_pos

/-- Settles O21: the one check of both commands decides between the error report and acceptance, and it compares
integers only. -/
theorem blockAcceptance : Obligations.BlockAcceptance := by
  intro w s r idle
  refine ⟨fun short => ?_, fun enough => ?_, fun _ _ => by omega, fun _ _ _ => by omega, resetStep_sLen_lt s r⟩
  · have fails : checkBlock r s = some .tableTooShort := checkBlock_some short
    exact ⟨exec_raises (i := .encrypt r) idle fails, exec_raises (i := .decrypt r) idle fails⟩
  · have passes : checkBlock r s = none := checkBlock_none.2 enough
    exact ⟨exec_accepts (i := .encrypt r) idle passes, exec_accepts (i := .decrypt r) idle passes⟩

end Sys2Proof.Machine
end

section
/-! ### The core just after reset

Reset leaves nothing pending, so each command meets its check first. The block commands fail it, as S_LEN is 0; the
others pass it and then run on what reset left: the empty key and A = B = 0 (70_reset_and_hazards.md R230, R232). -/

namespace Sys2Proof.Machine

open Sys2Proof

variable {w : Width}

/-- A command whose check passes runs through its two phases, acceptance and completion (30_encoding.md R90, R92). -/
theorem exec_runs_to_completion {i : Instr} {s : Inst w} (idle : s.pending = none)
    (passes : commandCheck i s = none) :
    exec i ⟨w, s⟩ = .next ⟨w, accept i s⟩ ∧
      exec i ⟨w, accept i s⟩ = .next ⟨w, finish (effectOf i (accept i s))⟩ :=
  ⟨exec_accepts idle passes, exec_completes (accept_pending s i)⟩

/-- After reset the empty key is the key: all of its no bytes are specified, whatever K holds. -/
theorem resetStep_keySpecified (s : Inst w) : (resetStep s).keySpecified = true :=
  Inst.keySpecified_iff.2 fun _ hk => absurd hk (Nat.not_lt_zero _)

/-- The table of the empty key does not depend on what K holds (70_reset_and_hazards.md R232). -/
theorem expandedTable_emptyKey (w : Width) (key key' : Nat → Byte) (r : Nat) :
    expandedTable w key 0 r = expandedTable w key' 0 r :=
  expandedTable_congr (fun _ hk => absurd hk (Nat.not_lt_zero _)) r

/-- The words of S after an EXPAND_KEY accepted just after reset are those of the empty key. -/
theorem expandKey_after_reset_readTable (s : Inst w) (key : Nat → Byte) {r i : Nat} (hi : i < tableLength r) :
    (effectOf (.expandKey r) (accept (.expandKey r) (resetStep s))).readTable i =
      (expandedTable w key 0 r).getD i 0 := by
  have specified : (accept (.expandKey r) (resetStep s)).keySpecified = true := resetStep_keySpecified s
  rw [effectOf, readTable_expandKeyEffect specified hi, accept_keyLen, resetStep_keyLen]
  exact congrArg (·.getD i 0) (expandedTable_emptyKey w _ key r)

/-- Settles O11: the block commands fail their check in the idle core; EXPAND_KEY up to R_MAX passes it and expands the
empty key; the rotations have no check and rotate 0 by 0. -/
theorem afterResetTheCoreIsIdle : Obligations.AfterResetTheCoreIsIdle := by
  intro w s
  have idle : (resetStep s).pending = none := resetStep_pending s
  have tooShort (r : Nat) : checkBlock r (resetStep s) = some .tableTooShort :=
    checkBlock_some (resetStep_sLen_lt s r)
  refine ⟨rfl, rfl, rfl, fun r => ?encrypt, fun r => ?decrypt, fun r hr => ?expandKey, fun r => ?rotl, fun r => ?rotr⟩
  case encrypt => exact exec_raises (i := .encrypt r) idle (tooShort r)
  case decrypt => exact exec_raises (i := .decrypt r) idle (tooShort r)
  case expandKey =>
    obtain ⟨accepted, completed⟩ := exec_runs_to_completion (i := .expandKey r) idle (checkExpandKey_none.2 hr)
    refine ⟨_, _, accepted, completed, fun key i hi => ?_⟩
    rw [finish_readTable]
    exact expandKey_after_reset_readTable s key hi
  case rotl =>
    obtain ⟨accepted, completed⟩ := exec_runs_to_completion (i := .rotl r) idle rfl
    exact ⟨_, _, accepted, completed, rotlW_of_mod_eq_zero 0 (Nat.zero_mod _), rfl⟩
  case rotr =>
    obtain ⟨accepted, completed⟩ := exec_runs_to_completion (i := .rotr r) idle rfl
    exact ⟨_, _, accepted, completed, rotrW_of_mod_eq_zero 0 (Nat.zero_mod _), rfl⟩

end Sys2Proof.Machine
end

section
/-! ### The encoding of a command

A command word is its two fields and nothing else (30_encoding.md R81), so a word with the reserved bits cleared is the
encoding of what it decodes to, and an encoding decodes to its command. -/

namespace Sys2Proof

variable {v : BitVec 64} {i : Instr}

/-- The bits of a word that are not reserved are its ROUNDS and OPC fields in their places (30_encoding.md R81). -/
theorem clearReserved_eq_fields (v : BitVec 64) :
    v &&& 0x0000000000FFFF0F#64 = (roundsField v).setWidth 64 <<< 8 ||| (opcField v).setWidth 64 := by
  ext k hk
  simp only [roundsField, opcField, BitVec.getElem_and, BitVec.getElem_or, BitVec.getElem_shiftLeft,
    BitVec.getElem_setWidth]
  interval_cases k <;> simp

/-- The encoding of a well-formed command has the command's fields (30_encoding.md R84). -/
theorem decodeWord_encode (h : i.wellFormed = true) : decodeWord (encode i) = .ok i := by
  obtain ⟨hopc, hrounds⟩ := Laws.EncodedFields.of_rounds i h
  exact decodeWord_of_fields hopc hrounds

/-- The fields of a word that decodes to a command are those of the command. -/
theorem fields_of_decodeWord (h : decodeWord v = .ok i) :
    opcField v = i.opcode ∧ (roundsField v).toNat = i.rounds := by
  unfold decodeWord at h
  split at h
  case h_6 => cases h
  all_goals
    cases h
    exact ⟨BitVec.eq_of_toNat_eq (by assumption), rfl⟩

/-- A word that decodes to a command is the command's encoding once its reserved bits are cleared. -/
theorem clearReserved_eq_encode (h : decodeWord v = .ok i) : v &&& 0x0000000000FFFF0F#64 = encode i := by
  obtain ⟨hopc, hrounds⟩ := fields_of_decodeWord h
  rw [clearReserved_eq_fields, encode, ← hopc, ← hrounds, BitVec.ofNat_toNat, BitVec.setWidth_eq]

/-- Settles O1: the encoding has the command's fields, the 8 byte lanes stand for the same word, and the bits that are
not reserved are the fields. -/
theorem decodeOfEncodeIsIdentity : Obligations.DecodeOfEncodeIsIdentity := by
  intro i h
  refine ⟨decodeWord_encode h, ?_, fun v hv => clearReserved_eq_encode hv⟩
  rw [encodeBytes, decode_bytesOfNat, decodeWord_encode h]

end Sys2Proof
end

section
/-! ### The lines of host programs

The word that a pseudo-instruction writes to CMD is the encoding of its command, and LOADKEY and LOADTABLE number their
operands from 0 (30_encoding.md R97). -/

namespace Sys2Proof

/-- The word `(r << 8) | opc` is the encoding of the command with these fields, and decodes to it (30_encoding.md
R97). -/
theorem commandWord_spec (r : BitVec 16) (i : Instr) (hi : i.rounds = r.toNat) :
    r.setWidth 64 <<< 8 ||| i.opcode.setWidth 64 = encode i ∧
      decodeWord (r.setWidth 64 <<< 8 ||| i.opcode.setWidth 64) = .ok i := by
  have word : r.setWidth 64 <<< 8 ||| i.opcode.setWidth 64 = encode i := by
    rw [encode, hi, BitVec.ofNat_toNat, BitVec.setWidth_eq]
  have fits : i.wellFormed = true := i.wellFormed_iff.2 (hi ▸ r.isLt)
  exact ⟨word, word ▸ decodeWord_encode fits⟩

/-- Settles O4: each word is the encoding rule's fields written out. -/
theorem writtenOutWordsDecode : Obligations.WrittenOutWordsDecode := by
  refine ⟨?_, ?_, ?_, ?_, ?_, ?_, ?_, ?_⟩ <;> exact decodeWord_of_fields (by decide) (by decide)

end Sys2Proof

namespace Sys2Proof.Machine

open Sys2Proof

/-- LOADKEY's writes are to K[k], K[k+1], ..., one for each operand. -/
theorem writeKeys_eq_map (mark : Bool) (k : Nat) (ks : List (BitVec 64)) :
    writeKeys mark k ks = (ks.zipIdx k).map fun x => .wr (BitVec.ofNat 13 (0x0800 + 8 * x.2)) x.1 mark := by
  induction ks generalizing k with
  | nil => rfl
  | cons x xs ih => rw [writeKeys, ih, List.zipIdx_cons, List.map_cons, keyAddr]

/-- LOADTABLE's writes are to S[i], S[i+1], ..., one for each operand. -/
theorem writeWords_eq_map (mark : Bool) (i : Nat) (ws : List (BitVec 64)) :
    writeWords mark i ws = (ws.zipIdx i).map fun x => .wr (BitVec.ofNat 13 (0x1000 + 8 * x.2)) x.1 mark := by
  induction ws generalizing i with
  | nil => rfl
  | cons x xs ih => rw [writeWords, ih, List.zipIdx_cons, List.map_cons, tableAddr]

/-- Settles O5: a line that starts a command writes the command's word, and a line that loads an array writes its
operands and then their number. -/
theorem pseudoInstructionsStartTheirCommands : Obligations.PseudoInstructionsStartTheirCommands := by
  intro r mark
  refine ⟨⟨rfl, commandWord_spec r (.expandKey r.toNat) rfl⟩, ⟨rfl, commandWord_spec r (.encrypt r.toNat) rfl⟩,
    ⟨rfl, commandWord_spec r (.decrypt r.toNat) rfl⟩, ⟨rfl, commandWord_spec 0 (.rotl 0) rfl⟩,
    ⟨rfl, commandWord_spec 0 (.rotr 0) rfl⟩, rfl, fun ks => ?_, fun ws => ?_,
    fun _ _ => ⟨rfl, rfl⟩, fun _ _ => ⟨rfl, rfl⟩⟩
  · rw [Line.expand, writeKeys_eq_map]
    rfl
  · rw [Line.expand, writeWords_eq_map]
    rfl

end Sys2Proof.Machine
end

section
/-! ### The Word operations as integers

Addition, subtraction, shifts and the byte conversion on the integers of Words (40_word_datapath.md R101 to R108); and
the bits of the two rotations (41_rotation.md R120, R121). -/

namespace Sys2Proof

/-- A Word has at least the 8 bits of a byte. -/
theorem Width.eight_le_bits (w : Width) : 8 ≤ w.bits := by cases w <;> decide

end Sys2Proof

namespace Sys2Proof.Machine

open Sys2Proof

variable {w : Width}

theorem toNat_addW (x y : Word w) : (addW x y).toNat = (x.toNat + y.toNat) % 2 ^ w.bits := BitVec.toNat_add x y

theorem toNat_subW (x y : Word w) : (subW x y).toNat = (x.toNat + 2 ^ w.bits - y.toNat) % 2 ^ w.bits := by
  have hy := y.isLt
  rw [subW, BitVec.toNat_sub, ← Nat.sub_add_comm hy.le, Nat.add_comm x.toNat]

theorem toNat_shlW (x : Word w) (s : Fin w.bits) : (shlW x s).toNat = (x.toNat * 2 ^ s.val) % 2 ^ w.bits := by
  rw [shlW, BitVec.toNat_shiftLeft, Nat.shiftLeft_eq]

theorem toNat_shrW (x : Word w) (s : Fin w.bits) : (shrW x s).toNat = x.toNat / 2 ^ s.val := by
  rw [shrW, BitVec.toNat_ushiftRight, Nat.shiftRight_eq_div_pow]

theorem toNat_zext8W (k : Byte) : (zext8W w k).toNat = k.toNat := by
  have hk : k.toNat < 2 ^ w.bits := k.isLt.trans_le (Nat.pow_le_pow_right two_pos w.eight_le_bits)
  rw [zext8W, BitVec.toNat_setWidth, Nat.mod_eq_of_lt hk]

/-- Settles O34: each operation is the bit-vector library's, whose integer or bits are known. -/
theorem datapathArithmetic : Obligations.DatapathArithmetic := fun _ x y =>
  ⟨toNat_addW x y, toNat_subW x y, subW_addW x y, fun s => ⟨toNat_shlW x s, toNat_shrW x s⟩, toNat_zext8W,
    fun _ => ⟨BitVec.getLsbD_xor, BitVec.getLsbD_and, BitVec.getLsbD_or⟩⟩

/-- Settles O36: it states the bits that the section on rotations reads off the bit-vector library's. -/
theorem rotationMovesBits : Obligations.RotationMovesBits := fun _ x y _ hn =>
  ⟨getLsbD_rotlW x y hn, getLsbD_rotrW x y hn⟩

end Sys2Proof.Machine
end

section
/-! ### The magic constants

P_W and Q_W are the integer parts of (e - 2) * 2^W and (φ - 1) * 2^W with bit 0 set (40_word_datapath.md R110). Both
numbers are located once, between two neighbours at 64 bits; the narrower widths are that integer part divided down. -/

namespace Sys2Proof.Machine

open Sys2Proof

theorem or_one_eq (n : ℕ) : n ||| 1 = n / 2 * 2 + 1 := by
  have half : (n ||| 1) / 2 = n / 2 := by rw [Nat.or_div_two, Nat.div_eq_of_lt one_lt_two, Nat.or_zero]
  have odd : (n ||| 1) % 2 = 1 := Nat.or_mod_two_eq_one.2 (.inr rfl)
  omega

/-- Setting bit 0 of the integer part of a number that is no integer stays within 1 of the number. -/
theorem abs_floor_or_one_sub_lt {y : ℝ} (h : (⌊y⌋₊ : ℝ) < y) : |((⌊y⌋₊ ||| 1 : ℕ) : ℝ) - y| < 1 := by
  have above := Nat.lt_floor_add_one y
  have bit0 : ⌊y⌋₊ ||| 1 = ⌊y⌋₊ ∨ ⌊y⌋₊ ||| 1 = ⌊y⌋₊ + 1 := by rw [or_one_eq]; omega
  obtain set | cleared := bit0
  · rw [set, abs_lt]
    constructor <;> linarith
  · rw [cleared, abs_lt, Nat.cast_succ]
    constructor <;> linarith

/-- The integer part at W bits is the one at 64 bits divided down, and it stays below the number. -/
theorem floor_at_width {x : ℝ} {m : ℕ} (lower : (m : ℝ) < x * 2 ^ 64) (upper : x * 2 ^ 64 < m + 1) (w : Width) :
    ⌊x * 2 ^ w.bits⌋₊ = m / 2 ^ (64 - w.bits) ∧ (⌊x * 2 ^ w.bits⌋₊ : ℝ) < x * 2 ^ w.bits := by
  have scaled : x * 2 ^ w.bits = x * 2 ^ 64 / (2 ^ (64 - w.bits) : ℕ) := by
    rw [eq_div_iff (by positivity), Nat.cast_pow, Nat.cast_ofNat, mul_assoc, ← pow_add, Nat.add_sub_cancel' w.bits_le]
  have at64 : ⌊x * 2 ^ 64⌋₊ = m := (Nat.floor_eq_iff (m.cast_nonneg.trans lower.le)).2 ⟨lower.le, upper⟩
  have floor : ⌊x * 2 ^ w.bits⌋₊ = m / 2 ^ (64 - w.bits) := by rw [scaled, Nat.floor_div_natCast, at64]
  refine ⟨floor, ?_⟩
  rw [floor, scaled]
  exact Nat.cast_div_le.trans_lt (by gcongr)

/-- What R110 says of a constant, from the place of its number at 64 bits. -/
theorem magic_of_place {x : ℝ} {m : ℕ} (place : (m : ℝ) < x * 2 ^ 64 ∧ x * 2 ^ 64 < m + 1) {w : Width} {p : Word w}
    (value : p.toNat = m / 2 ^ (64 - w.bits) ||| 1) :
    p.toNat % 2 = 1 ∧ |(p.toNat : ℝ) - x * 2 ^ w.bits| < 1 ∧ p.toNat = ⌊x * 2 ^ w.bits⌋₊ ||| 1 := by
  obtain ⟨floor, below⟩ := floor_at_width place.1 place.2 w
  rw [← floor] at value
  exact ⟨by rw [value, or_one_eq]; omega, value ▸ abs_floor_or_one_sub_lt below, value⟩

/-- (e - 2) * 2^64 lies between two neighbours. -/
theorem exp_at_64 : ((0xB7E151628AED2A6A : ℕ) : ℝ) < (Real.exp 1 - 2) * 2 ^ 64 ∧
    (Real.exp 1 - 2) * 2 ^ 64 < (0xB7E151628AED2A6A : ℕ) + 1 := by
  have near := abs_le.1 Real.exp_one_near_20
  constructor <;> push_cast <;> linarith

/-- (φ - 1) * 2^64 lies between two neighbours: φ is the positive root of its square's equation. -/
theorem goldenRatio_at_64 : ((0x9E3779B97F4A7C15 : ℕ) : ℝ) < (Real.goldenRatio - 1) * 2 ^ 64 ∧
    (Real.goldenRatio - 1) * 2 ^ 64 < (0x9E3779B97F4A7C15 : ℕ) + 1 := by
  have square := Real.goldenRatio_sq
  have positive := Real.goldenRatio_pos
  constructor <;> push_cast <;> nlinarith

theorem toNat_magicP (w : Width) : (magicP w).toNat = 0xB7E151628AED2A6A / 2 ^ (64 - w.bits) ||| 1 := by
  cases w <;> decide

theorem toNat_magicQ (w : Width) : (magicQ w).toNat = 0x9E3779B97F4A7C15 / 2 ^ (64 - w.bits) ||| 1 := by
  cases w <;> decide

/-- Settles O35: the table's values are the two numbers' integer parts at 64 bits, divided down to each width, with
bit 0 set. -/
theorem magicConstantsAreStated : Obligations.MagicConstantsAreStated := by
  refine ⟨rfl, rfl, rfl, rfl, rfl, rfl, rfl, rfl, fun w => ?_⟩
  obtain ⟨oddP, nearP, floorP⟩ := magic_of_place exp_at_64 (toNat_magicP w)
  obtain ⟨oddQ, nearQ, floorQ⟩ := magic_of_place goldenRatio_at_64 (toNat_magicQ w)
  exact ⟨oddP, nearP, oddQ, nearQ, floorP, floorQ⟩

end Sys2Proof.Machine
end

section
/-! ### PACK in closed form

PACK takes the key bytes downwards, and each turn shifts one slot up by a byte and puts the key byte below
(42_key_schedule.md R143). The n turns that are left reach `slotBytes n s` bytes of slot s, so a slot that is small
enough to be shifted that far loses nothing. -/

namespace Sys2Proof.Machine

open Sys2Proof

variable {w : Width}

/-- How many bytes of slot s have an index below n. -/
def slotBytes (w : Width) (n s : Nat) : Nat := min (n - w.bytes * s) w.bytes

theorem slotBytes_le (n s : Nat) : slotBytes w n s ≤ w.bytes := min_le_right _ _

/-- The byte of index n is the next one up in its slot. -/
theorem slotBytes_succ_same {n s : Nat} (h : n / w.bytes = s) :
    n = w.bytes * s + slotBytes w n s ∧ slotBytes w (n + 1) s = slotBytes w n s + 1 := by
  have place := Nat.div_add_mod n w.bytes
  have lane := Nat.mod_lt n w.bytes_pos
  rw [h] at place
  simp only [slotBytes]
  omega

/-- A byte of one slot is none of another. -/
theorem slotBytes_succ_other {n s : Nat} (h : n / w.bytes ≠ s) : slotBytes w (n + 1) s = slotBytes w n s := by
  have place := Nat.div_add_mod n w.bytes
  have lane := Nat.mod_lt n w.bytes_pos
  simp only [slotBytes]
  obtain below | above := Nat.lt_or_gt_of_ne h
  · have := Nat.mul_le_mul_left w.bytes (Nat.succ_le_of_lt below)
    rw [Nat.mul_succ] at this
    omega
  · have := Nat.mul_le_mul_left w.bytes (Nat.succ_le_of_lt above)
    rw [Nat.mul_succ] at this
    omega

theorem two_pow_bits (w : Width) : 2 ^ w.bits = 2 ^ (w.bits - 8) * 256 := by
  rw [← Nat.pow_add 2 (w.bits - 8) 8, Nat.sub_add_cancel w.eight_le_bits]

/-- Rotating by 8 a Word with a free top byte is shifting it up by a byte. -/
theorem toNat_rotlW_eight {x : Word w} (hx : x.toNat < 2 ^ (w.bits - 8)) : (rotlW x 8).toNat = 256 * x.toNat := by
  have wide := w.eight_le_bits
  by_cases whole : 8 % w.bits = 0
  · have zero : x.toNat = 0 := by
      rw [Nat.sub_eq_zero_of_le (Nat.le_of_dvd (by decide) (Nat.dvd_of_mod_eq_zero whole))] at hx
      omega
    rw [rotlW_of_mod_eq_zero x whole, zero]
  · have amount : 8 % w.bits = 8 := Nat.mod_eq_of_lt (wide.lt_of_ne fun h => whole (h ▸ Nat.mod_self 8))
    have fits : x.toNat * 256 < 2 ^ w.bits := by
      have := two_pow_bits w
      omega
    have out : x >>> (w.bits - 8) = 0#w.bits :=
      BitVec.eq_of_toNat_eq (by rw [BitVec.toNat_ushiftRight, Nat.shiftRight_eq_div_pow, Nat.div_eq_of_lt hx]; rfl)
    rw [rotlW_eq_rotateLeft, BitVec.rotateLeft_def, amount, out, BitVec.or_zero, BitVec.toNat_shiftLeft,
      Nat.shiftLeft_eq, show (2 : Nat) ^ 8 = 256 from rfl, Nat.mod_eq_of_lt fits, Nat.mul_comm]

/-- One turn of PACK on a slot with a free top byte loses nothing. -/
theorem toNat_shiftIn {x : Word w} {c : Nat} (hx : x.toNat < 256 ^ c) (hc : c < w.bytes) (k : Byte) :
    (addW (rotlW x 8) (zext8W w k)).toNat = 256 * x.toNat + k.toNat ∧ 256 * x.toNat + k.toNat < 256 ^ (c + 1) := by
  have hk := k.isLt
  have small : 256 * x.toNat + k.toNat < 256 ^ (c + 1) := by rw [Nat.pow_succ]; omega
  have fits : 256 * x.toNat + k.toNat < 2 ^ w.bits :=
    small.trans_le (pow_bytes w ▸ Nat.pow_le_pow_right (by decide) hc)
  have free : x.toNat < 2 ^ (w.bits - 8) := by
    have := two_pow_bits w
    omega
  rw [toNat_addW, toNat_zext8W, toNat_rotlW_eight free, Nat.mod_eq_of_lt fits]
  exact ⟨rfl, small⟩

theorem getD_packByte_same {l : List (Word w)} {n s : Nat} (h : n / w.bytes = s) (hs : s < l.length) (k : Byte) :
    (packByte n k l).getD s 0 = addW (rotlW (l.getD s 0) 8) (zext8W w k) := by
  simp [packByte, List.getD_eq_getElem?_getD, h, hs]

theorem getD_packByte_other {l : List (Word w)} {n s : Nat} (h : n / w.bytes ≠ s) (k : Byte) :
    (packByte n k l).getD s 0 = l.getD s 0 := by
  simp [packByte, List.getD_eq_getElem?_getD, h]

/-- The bytes of index below n go below what the slot held. -/
theorem toNat_packLoop (key : Nat → Byte) (n s : Nat) {l : List (Word w)} (hs : s < l.length)
    (small : (l.getD s 0).toNat < 256 ^ (w.bytes - slotBytes w n s)) :
    ((packLoop key n l).getD s 0).toNat =
      (l.getD s 0).toNat * 256 ^ slotBytes w n s +
        ∑ m ∈ Finset.range (slotBytes w n s), (key (w.bytes * s + m)).toNat * 256 ^ m := by
  induction n generalizing l with
  | zero => simp [packLoop, slotBytes]
  | succ n ih =>
    have hs' : s < (packByte n (key n) l).length := by rwa [length_packByte]
    rw [packLoop]
    by_cases same : n / w.bytes = s
    case pos =>
      obtain ⟨place, count⟩ := slotBytes_succ_same same
      have room := slotBytes_le (w := w) (n + 1) s
      rw [count] at small room
      obtain ⟨value, small'⟩ := toNat_shiftIn small (by omega) (key n)
      rw [← getD_packByte_same same hs] at value
      rw [ih hs' (by rw [value]; convert small' using 2; omega), value, count, Finset.sum_range_succ, ← place]
      ring
    case neg =>
      have count := slotBytes_succ_other same
      have value := getD_packByte_other (l := l) same (key n)
      rw [count] at small ⊢
      rw [ih hs' (value ▸ small), value]

/-- Settles O43: PACK starts from zeros, so a slot holds the sum of its bytes with an index below b. -/
theorem packIsLittleEndian : Obligations.PackIsLittleEndian := by
  intro w key b s hs
  refine ⟨length_pack w key b, ?_⟩
  have zero : (List.replicate (bufferLength w b) (0 : Word w)).getD s 0 = 0 := by
    simp [List.getD_eq_getElem?_getD, hs]
  have packed := toNat_packLoop key b s (l := List.replicate (bufferLength w b) (0 : Word w))
    (by rwa [List.length_replicate]) (by rw [zero]; exact Nat.pow_pos (by decide))
  rw [pack, packed, zero, show (0 : Word w).toNat = 0 from rfl, Nat.zero_mul, Nat.zero_add]
  calc ∑ m ∈ Finset.range (slotBytes w b s), (key (w.bytes * s + m)).toNat * 256 ^ m
      = ∑ m ∈ Finset.range (slotBytes w b s),
          (if w.bytes * s + m < b then (key (w.bytes * s + m)).toNat else 0) * 2 ^ (8 * m) :=
        Finset.sum_congr rfl fun m hm => by
          rw [Finset.mem_range, slotBytes] at hm
          rw [if_pos (by omega), Nat.pow_mul]
    _ = _ :=
        Finset.sum_subset (Finset.range_mono (slotBytes_le b s)) fun m hm hn => by
          rw [Finset.mem_range] at hm
          rw [Finset.mem_range, slotBytes] at hn
          rw [if_neg (by omega), Nat.zero_mul]

end Sys2Proof.Machine
end

section
/-! ### INIT in closed form, and MIX along sequences

INIT counts up from P_W by Q_W (42_key_schedule.md R144). MIX (R145) keeps its variables in step with any sequences that
obey the mixing rule: `Mixing.Follows` says what that means at iteration n. -/

namespace Sys2Proof.Machine

open Sys2Proof

variable {w : Width}

/-! #### INIT -/

theorem getD_initLoop {n i : Nat} (x : Word w) (hi : i < n) :
    (initLoop n x).getD i 0 = x + BitVec.ofNat w.bits i * magicQ w := by
  induction n generalizing x i with
  | zero => exact absurd hi (Nat.not_lt_zero i)
  | succ n ih =>
    cases i with
    | zero => rw [initLoop, List.getD_cons_zero, BitVec.zero_mul, BitVec.add_zero]
    | succ i =>
      rw [initLoop, List.getD_cons_succ, ih _ (Nat.lt_of_succ_lt_succ hi), addW, BitVec.ofNat_add,
        BitVec.add_mul, BitVec.one_mul, BitVec.add_assoc, BitVec.add_comm (magicQ w)]

/-- Word i of INIT (42_key_schedule.md R144). -/
theorem getD_initTable {t i : Nat} (hi : i < t) :
    (initTable w t).getD i 0 = magicP w + BitVec.ofNat w.bits i * magicQ w := getD_initLoop _ hi

/-- Settles O44: each word is given by the closed form, which grows by Q_W from one word to the next. -/
theorem initIsAnArithmeticProgression : Obligations.InitIsAnArithmeticProgression := by
  intro w t
  refine ⟨length_initLoop t _, fun ht => ?_, fun i pos hi => ?_, fun i hi => ?_⟩
  · rw [getD_initTable ht, BitVec.zero_mul, BitVec.add_zero]
  · obtain ⟨j, rfl⟩ := Nat.exists_eq_succ_of_ne_zero pos.ne'
    rw [getD_initTable hi, Nat.succ_sub_one, getD_initTable (Nat.lt_of_succ_lt hi), Nat.succ_eq_add_one,
      BitVec.ofNat_add, BitVec.add_mul, BitVec.one_mul, BitVec.add_assoc]
  · rw [getD_initTable hi, BitVec.toNat_add, BitVec.toNat_mul, BitVec.toNat_ofNat, Nat.mod_mul_mod, Nat.add_mod_mod]

/-! #### MIX -/

/-- Sequences that step as the mixing rule says, with `i = n mod t` and `j = n mod c` (42_key_schedule.md R145,
90_conflicts.md C1). -/
structure MixRule (t c : Nat) (ka kb : Nat → Word w) (sw lw : Nat → Nat → Word w) : Prop where
  ka_succ : ∀ n, ka (n + 1) = (sw n (n % t) + ka n + kb n).rotateLeft 3
  kb_succ : ∀ n, kb (n + 1) = (lw n (n % c) + ka (n + 1) + kb n).rotateLeft (ka (n + 1) + kb n).toNat
  sw_succ : ∀ n, sw (n + 1) = Function.update (sw n) (n % t) (ka (n + 1))
  lw_succ : ∀ n, lw (n + 1) = Function.update (lw n) (n % c) (kb (n + 1))

/-- A list holds the first n words of a sequence, and no more. -/
def Holds (xs : List (Word w)) (n : Nat) (f : Nat → Word w) : Prop := xs.length = n ∧ ∀ i, i < n → xs.getD i 0 = f i

theorem Holds.update {xs : List (Word w)} {n : Nat} {f : Nat → Word w} (h : Holds xs n f) (k : Nat) (x : Word w) :
    Holds (xs.set k x) n (Function.update f k x) := by
  obtain ⟨len, words⟩ := h
  refine ⟨by rw [List.length_set, len], fun i hi => ?_⟩
  by_cases here : i = k
  · subst here
    rw [Function.update_self, List.getD_eq_getElem _ _ (by rwa [List.length_set, len]), List.getElem_set_self]
  · rw [Function.update_of_ne here, ← words i hi, List.getD_eq_getElem?_getD, List.getD_eq_getElem?_getD,
      List.getElem?_set_ne (Ne.symm here)]

/-- MIX's variables at iteration n are those of the sequences. -/
structure Mixing.Follows (t c : Nat) (ka kb : Nat → Word w) (sw lw : Nat → Nat → Word w) (n : Nat) (m : Mixing w) :
    Prop where
  i_eq : m.i = n % t
  j_eq : m.j = n % c
  ka_eq : m.ka = ka n
  kb_eq : m.kb = kb n
  s_holds : Holds m.s t (sw n)
  l_holds : Holds m.l c (lw n)

variable {t c : Nat} {ka kb : Nat → Word w} {sw lw : Nat → Nat → Word w} {n : Nat} {m : Mixing w}

/-- One iteration of MIX is one step of the sequences. -/
theorem Mixing.Follows.mixStep (ht : 0 < t) (hc : 0 < c) (rule : MixRule t c ka kb sw lw)
    (h : m.Follows t c ka kb sw lw n) : (mixStep t c m).Follows t c ka kb sw lw (n + 1) := by
  obtain ⟨hi, hj, hka, hkb, hs, hl⟩ := h
  have word : m.s.getD m.i 0 = sw n (n % t) := by rw [hi, hs.2 _ (Nat.mod_lt n ht)]
  have slot : m.l.getD m.j 0 = lw n (n % c) := by rw [hj, hl.2 _ (Nat.mod_lt n hc)]
  have ka' : (Machine.mixStep t c m).ka = ka (n + 1) := by
    rw [rule.ka_succ, ← word, ← hka, ← hkb]
    exact rotlW_eq_rotateLeft _ _
  have kb' : (Machine.mixStep t c m).kb = kb (n + 1) := by
    rw [rule.kb_succ, ← slot, ← ka', ← hkb]
    exact rotlW_eq_rotateLeft _ _
  refine ⟨?_, ?_, ka', kb', ?_, ?_⟩
  · rw [← Nat.mod_add_mod, ← hi]
    rfl
  · rw [← Nat.mod_add_mod, ← hj]
    rfl
  · rw [rule.sw_succ, ← ka', ← hi]
    exact hs.update _ _
  · rw [rule.lw_succ, ← kb', ← hj]
    exact hl.update _ _

theorem Mixing.Follows.mixLoop (ht : 0 < t) (hc : 0 < c) (rule : MixRule t c ka kb sw lw) (k : Nat)
    (h : m.Follows t c ka kb sw lw n) : (mixLoop t c k m).Follows t c ka kb sw lw (n + k) := by
  induction k generalizing m n with
  | zero => exact h
  | succ k ih =>
    rw [Machine.mixLoop, ← Nat.succ_add_eq_add_succ]
    exact ih (h.mixStep ht hc rule)

/-- Settles O45: MIX starts with the sequences' first words and follows them to its last iteration. -/
theorem expandedTableFollowsTheMixingRule : Obligations.ExpandedTableFollowsTheMixingRule := by
  intro w key b r ka kb sw lw hka hkb hsw hlw ka_succ kb_succ sw_succ lw_succ
  have ht : 0 < 2 * (r + 1) := Nat.mul_pos two_pos r.succ_pos
  have start : (Mixing.start (initTable w (2 * (r + 1))) (pack w key b)).Follows (2 * (r + 1)) (bufferLength w b)
      ka kb sw lw 0 :=
    ⟨(Nat.zero_mod _).symm, (Nat.zero_mod _).symm, hka.symm, hkb.symm,
      ⟨length_initLoop _ _, fun i hi => (hsw i hi).symm⟩, ⟨length_pack w key b, fun j hj => (hlw j hj).symm⟩⟩
  have final := start.mixLoop ht (bufferLength_pos w b) ⟨ka_succ, kb_succ, sw_succ, lw_succ⟩
    (3 * max (2 * (r + 1)) (bufferLength w b))
  rw [Nat.zero_add] at final
  exact final.s_holds

end Sys2Proof.Machine
end

section
/-! ### The address map

Where each address leads (20_memory.md R51, R53, R54): a slot is found at its own address and at no other, and an
address without a slot is misaligned or in a hole. -/

namespace Sys2Proof.Machine

open Sys2Proof

variable {addr : BitVec 13}

/-- The aligned addresses at which nothing is mapped (20_memory.md R54). -/
def InHole (addr : BitVec 13) : Prop := 0x0038 ≤ addr.toNat ∧ addr.toNat ≤ 0x07F8 ∨ addr.toNat = 0x0FF8

theorem toNat_addr_key (k : Fin 255) : (Slot.key k).addr.toNat = 0x0800 + 8 * k := by
  rw [Slot.addr, keyAddr, BitVec.toNat_ofNat, Nat.mod_eq_of_lt (by omega)]

theorem toNat_addr_table (i : Fin 512) : (Slot.table i).addr.toNat = 0x1000 + 8 * i := by
  rw [Slot.addr, tableAddr, BitVec.toNat_ofNat, Nat.mod_eq_of_lt (by omega)]

theorem slotAt_of_misaligned (h : addr.toNat % 8 ≠ 0) : slotAt addr = .error .misaligned := if_pos h

theorem slotAt_of_table (aligned : addr.toNat % 8 = 0) (h : 0x1000 ≤ addr.toNat) :
    slotAt addr = .ok (.table ⟨(addr.toNat - 0x1000) / 8, by omega⟩) := by
  rw [slotAt, if_neg (not_not_intro aligned), dif_pos h]

theorem slotAt_of_key (aligned : addr.toNat % 8 = 0) (h : 0x0800 ≤ addr.toNat ∧ addr.toNat < 0x0FF8) :
    slotAt addr = .ok (.key ⟨(addr.toNat - 0x0800) / 8, by omega⟩) := by
  rw [slotAt, if_neg (not_not_intro aligned), dif_neg (by omega), dif_pos h]

theorem slotAt_of_hole (aligned : addr.toNat % 8 = 0) (h : InHole addr) : slotAt addr = .error .unmapped := by
  unfold InHole at h
  rw [slotAt, if_neg (not_not_intro aligned), dif_neg (by omega), dif_neg (by omega)]
  split
  case h_8 => rfl
  all_goals omega

/-- Every slot is found at its address. -/
@[simp] theorem slotAt_addr (slot : Slot) : slotAt slot.addr = .ok slot := by
  cases slot with
  | id => exact slotAt_id
  | cmd => exact slotAt_cmd
  | status => exact slotAt_status
  | keyLen => exact slotAt_keyLen
  | sLen => exact slotAt_sLen
  | regA => exact slotAt_regA
  | regB => exact slotAt_regB
  | key k =>
    have place := toNat_addr_key k
    rw [slotAt_of_key (by omega) (by omega)]
    congr
    omega
  | table i =>
    have place := toNat_addr_table i
    rw [slotAt_of_table (by omega) (by omega)]
    congr
    omega

/-- An aligned address outside the holes is some slot's. -/
theorem exists_addr_eq (aligned : addr.toNat % 8 = 0) (mapped : ¬ InHole addr) : ∃ slot : Slot, slot.addr = addr := by
  unfold InHole at mapped
  by_cases table : 0x1000 ≤ addr.toNat
  · refine ⟨.table ⟨(addr.toNat - 0x1000) / 8, by omega⟩, BitVec.eq_of_toNat_eq ?_⟩
    rw [toNat_addr_table]
    dsimp only
    omega
  by_cases key : 0x0800 ≤ addr.toNat
  · refine ⟨.key ⟨(addr.toNat - 0x0800) / 8, by omega⟩, BitVec.eq_of_toNat_eq ?_⟩
    rw [toNat_addr_key]
    dsimp only
    omega
  have register : addr.toNat = 0 ∨ addr.toNat = 8 ∨ addr.toNat = 16 ∨ addr.toNat = 24 ∨ addr.toNat = 32 ∨
      addr.toNat = 40 ∨ addr.toNat = 48 := by omega
  obtain h | h | h | h | h | h | h := register
  · exact ⟨.id, BitVec.eq_of_toNat_eq h.symm⟩
  · exact ⟨.cmd, BitVec.eq_of_toNat_eq h.symm⟩
  · exact ⟨.status, BitVec.eq_of_toNat_eq h.symm⟩
  · exact ⟨.keyLen, BitVec.eq_of_toNat_eq h.symm⟩
  · exact ⟨.sLen, BitVec.eq_of_toNat_eq h.symm⟩
  · exact ⟨.regA, BitVec.eq_of_toNat_eq h.symm⟩
  · exact ⟨.regB, BitVec.eq_of_toNat_eq h.symm⟩

/-- Everything an address can lead to. -/
theorem slotAt_cases (addr : BitVec 13) :
    (addr.toNat % 8 ≠ 0 ∧ slotAt addr = .error .misaligned) ∨
    (addr.toNat % 8 = 0 ∧ InHole addr ∧ slotAt addr = .error .unmapped) ∨
    ∃ slot : Slot, slot.addr = addr ∧ slotAt addr = .ok slot := by
  by_cases aligned : addr.toNat % 8 = 0
  · by_cases hole : InHole addr
    · exact .inr (.inl ⟨aligned, hole, slotAt_of_hole aligned hole⟩)
    · obtain ⟨slot, rfl⟩ := exists_addr_eq aligned hole
      exact .inr (.inr ⟨slot, rfl, slotAt_addr slot⟩)
  · exact .inl ⟨aligned, slotAt_of_misaligned aligned⟩

theorem addr_of_slotAt {slot : Slot} (h : slotAt addr = .ok slot) : slot.addr = addr := by
  obtain ⟨_, e⟩ | ⟨_, _, e⟩ | ⟨slot', place, e⟩ := slotAt_cases addr
  · cases e ▸ h
  · cases e ▸ h
  · cases e ▸ h
    exact place

theorem slotAt_misaligned_iff : slotAt addr = .error .misaligned ↔ addr.toNat % 8 ≠ 0 := by
  refine ⟨fun h => ?_, slotAt_of_misaligned⟩
  obtain ⟨bad, _⟩ | ⟨_, _, e⟩ | ⟨_, _, e⟩ := slotAt_cases addr
  · exact bad
  · cases e ▸ h
  · cases e ▸ h

theorem slotAt_unmapped_iff : slotAt addr = .error .unmapped ↔ addr.toNat % 8 = 0 ∧ InHole addr := by
  refine ⟨fun h => ?_, fun ⟨aligned, hole⟩ => slotAt_of_hole aligned hole⟩
  obtain ⟨_, e⟩ | ⟨aligned, hole, _⟩ | ⟨_, _, e⟩ := slotAt_cases addr
  · cases e ▸ h
  · exact ⟨aligned, hole⟩
  · cases e ▸ h

/-- The map knows nothing of BUSY. -/
theorem slotAt_ne_busyLock (addr : BitVec 13) : slotAt addr ≠ .error .busyLock := fun h => by
  obtain ⟨_, e⟩ | ⟨_, _, e⟩ | ⟨_, _, e⟩ := slotAt_cases addr <;> cases e ▸ h

/-- Settles O52: an address leads to the slot whose address it is, or it is misaligned, or in a hole. -/
theorem addressMapIsOneToOne : Obligations.AddressMapIsOneToOne :=
  ⟨slotAt_addr, fun _ _ h => addr_of_slotAt h, fun _ => slotAt_misaligned_iff, fun _ => slotAt_unmapped_iff,
    slotAt_ne_busyLock⟩

end Sys2Proof.Machine
end

section
/-! ### Host reads

What a read of each slot gives, in numbers (20_memory.md R52, R56), when the busy lock refuses it (R58), and that no
slot's value depends on the environment's part of the contents. -/

namespace Sys2Proof.Machine

open Sys2Proof

variable {w : Width} {addr : BitVec 13}

/-! #### The environment's part of the contents -/

theorem withHostOf_readTable (s t : Inst w) : (s.withHostOf t).readTable = s.readTable := by
  funext i
  exact congrArg (BitVec.ofNat w.bits) (Inst.readLanes_congr fun _ _ => rfl)

theorem value_withHostOf (slot : Slot) (s t : Inst w) : slot.value (s.withHostOf t) = slot.value s := by
  cases slot with
  | table i => exact congrArg (·.setWidth 64) (congrFun (withHostOf_readTable s t) i)
  | id | cmd | status | keyLen | sLen | regA | regB | key => rfl

/-- A read gets the same from contents that hold the same core. -/
theorem memRead_withHostOf (addr : BitVec 13) (s t : Inst w) : memRead addr (s.withHostOf t) = memRead addr s := by
  simp only [memRead, value_withHostOf]
  rfl

@[simp] theorem memRead_respond (addr : BitVec 13) (s : Inst w) (r : Response) :
    memRead addr (s.respond r) = memRead addr s := memRead_withHostOf addr s (s.respond r)

@[simp] theorem memRead_advance (addr : BitVec 13) (s : Inst w) (rest : List HostOp) :
    memRead addr (s.advance rest) = memRead addr s := memRead_withHostOf addr s (s.advance rest)

@[simp] theorem memRead_reschedule (addr : BitVec 13) (s : Inst w) (later : List Agent) :
    memRead addr (s.reschedule later) = memRead addr s := memRead_withHostOf addr s (s.reschedule later)

/-! #### Reads of slots -/

theorem memRead_of_error {e : Fault} (h : slotAt addr = .error e) (s : Inst w) : memRead addr s = .error e := by
  rw [memRead, h]

theorem memRead_unlocked {slot : Slot} {s : Inst w} (h : (s.status.busy && slot.lockedRead) = false) :
    memRead slot.addr s = .ok (slot.value s) := by
  simp [memRead, h]

theorem memRead_locked {slot : Slot} {s : Inst w} (h : (s.status.busy && slot.lockedRead) = true) :
    memRead slot.addr s = .error .busyLock := by
  simp [memRead, h]

theorem memRead_of_not_busy {s : Inst w} (h : s.status.busy = false) (slot : Slot) :
    memRead slot.addr s = .ok (slot.value s) := memRead_unlocked (by rw [h, Bool.false_and])

theorem memRead_of_not_locked {slot : Slot} (h : slot.lockedRead = false) (s : Inst w) :
    memRead slot.addr s = .ok (slot.value s) := memRead_unlocked (by rw [h, Bool.and_false])

/-- The addresses whose reads the busy lock refuses (20_memory.md R53, R58). -/
theorem lockedRead_iff (slot : Slot) :
    slot.lockedRead = true ↔ 0x0020 ≤ slot.addr.toNat ∧ slot.addr.toNat ≤ 0x0030 ∨ 0x1000 ≤ slot.addr.toNat := by
  cases slot with
  | key k =>
    have := toNat_addr_key k
    simp only [Slot.lockedRead, Bool.false_eq_true, false_iff]
    omega
  | table i =>
    have := toNat_addr_table i
    simp only [Slot.lockedRead, true_iff]
    omega
  | id | cmd | status | keyLen | sLen | regA | regB => decide

/-! #### The values in numbers -/

theorem idWord_eq (w : Width) : idWord w = BitVec.ofNat 64 (w.bits ||| 0xFF00) := by
  cases w <;> decide

/-- STATUS reads as its fields at their bits (10_state.md R27). -/
theorem Status.word_eq (st : Status) :
    st.word = BitVec.ofNat 64 (st.busy.toNat + 2 * st.done.toNat + 4 * st.err.toNat + 16 * st.errCode.toNat) := by
  obtain ⟨busy, done, err, code⟩ := st
  cases busy <;> cases done <;> cases err <;> revert code <;> decide

@[simp] theorem Status.getLsbD_word_zero (st : Status) : st.word.getLsbD 0 = st.busy := by
  simp [Status.word]

/-- A read that gets BUSERR records it or stops, as its line is marked. -/
theorem hostRead_error {e : Fault} {mark : Bool} {s : State} (h : memRead addr s.inst = .error e) :
    hostRead addr mark s = busError e mark s := by
  simp [hostRead, h]

/-- Settles O53: each address is a slot's, and the slot's value is the number the rule gives. -/
theorem hostReadValues : Obligations.HostReadValues := by
  intro w s
  simp only [← idWord_eq, ← Status.word_eq, BitVec.ofNat_toNat]
  refine ⟨memRead_of_not_locked (slot := .id) rfl s, memRead_of_not_locked (slot := .cmd) rfl s,
    memRead_of_not_locked (slot := .status) rfl s, memRead_of_not_locked (slot := .keyLen) rfl s,
    fun k hk => memRead_of_not_locked (slot := .key ⟨k, hk⟩) rfl s, fun idle => ?_,
    fun addr data mark h => hostRead_ok h⟩
  have read := memRead_of_not_busy idle
  exact ⟨read .sLen, read .regA, read .regB, fun i hi => read (.table ⟨i, hi⟩)⟩

/-- Settles O18: STATUS is never locked, its bit 0 is BUSY, and with BUSY = 0 no slot is locked. -/
theorem statusReadSynchronises : Obligations.StatusReadSynchronises := by
  intro w s inv
  refine ⟨s.status.word, memRead_of_not_locked (slot := .status) rfl s, ?_, fun h slot => ?_⟩
  · rw [Status.getLsbD_word_zero, inv.busy_iff_pending, Option.isSome_eq_false_iff, Option.isNone_iff_eq_none]
  · rw [Status.getLsbD_word_zero] at h
    exact ⟨_, memRead_of_not_busy h slot⟩

/-- A read does not depend on the response recorded before it. -/
theorem hostRead_respond (addr : BitVec 13) (mark : Bool) (s : Inst w) (r : Response) :
    hostRead addr mark ⟨w, s.respond r⟩ = hostRead addr mark ⟨w, s⟩ := by
  simp only [hostRead, memRead_respond]
  rfl

/-- Settles O59: a read answers a change of the recorded response, which the next read does not depend on. -/
theorem readsHaveNoSideEffect : Obligations.ReadsHaveNoSideEffect := by
  intro w s t addr mark h
  obtain ⟨r, rfl⟩ := hostRead_cases h
  exact ⟨s.respond r, rfl, rfl, (hostRead_respond addr mark s r).trans h⟩

/-- One poll of WAIT, from its one STATUS read (30_encoding.md R97). -/
theorem hostWait_eq (rest : List HostOp) (s : Inst w) :
    hostWait rest ⟨w, s⟩ = .next ⟨w, (s.respond (.readOk s.status.word)).advance
      (if s.status.busy then s.prog else rest)⟩ := by
  have read : memRead Slot.status.addr s = .ok s.status.word := memRead_of_not_locked (slot := .status) rfl s
  simp only [hostWait, read, Status.getLsbD_word_zero]
  cases s.status.busy <;> rfl

/-- Settles O60: the poll's bit 0 is BUSY. -/
theorem waitPollsStatus : Obligations.WaitPollsStatus := by
  intro w s rest h
  have poll : hostStep ⟨w, s⟩ = hostWait rest ⟨w, s⟩ := by simp only [hostStep, h]
  rw [poll, hostWait_eq]
  exact ⟨fun busy => by rw [if_pos busy]; rfl, fun idle => by rw [if_neg (by rw [idle]; decide)]; rfl⟩

end Sys2Proof.Machine
end

section
/-! ### Host writes

A write that the busy lock lets through finds its slot and stores there (20_memory.md R57). `Slot.stored` is what it
leaves, and each component has one lemma that says which slot alone changes it. -/

namespace Sys2Proof.Machine

open Sys2Proof

variable {w : Width} {addr : BitVec 13} {slot : Slot}

/-! #### What the arrays read as -/

theorem Inst.readByte_congr {s t : Inst w} (hmem : t.mem = s.mem) (hram : t.ramDraw = s.ramDraw)
    (htab : t.tableDraws = s.tableDraws) (a : Nat) : t.readByte a = s.readByte a := by
  rw [Inst.readByte, Inst.redraws, hmem, hram, htab, Inst.readByte, Inst.redraws]

theorem Inst.readTable_congr {s t : Inst w} (h : ∀ a, t.readByte a = s.readByte a) : t.readTable = s.readTable := by
  funext i
  exact congrArg (BitVec.ofNat w.bits) (Inst.readLanes_congr fun _ _ => h _)

/-- A byte that is none of n byte lanes is below or above them. -/
theorem outside_lanes {a b n : Nat} (h : ∀ m, m < n → b ≠ a + m) : b < a ∨ a + n ≤ b := by
  have := h (b - a)
  omega

/-! #### What a write leaves -/

/-- The contents after a write to a slot other than CMD; `store_eq` ties it to the model. -/
def Slot.stored (slot : Slot) (v : BitVec 64) (s : Inst w) : Inst w :=
  match slot with
  | .id | .cmd | .status => s
  | .keyLen => s.writeKeyLen (v.setWidth 8)
  | .sLen => s.writeSLen (v.setWidth 10)
  | .regA => s.writeA (v.setWidth w.bits)
  | .regB => s.writeB (v.setWidth w.bits)
  | .key k => s.writeKey k (v.setWidth 8)
  | .table i => s.writeTable i [v.setWidth w.bits]

theorem store_eq (h : slot ≠ .cmd) (v : BitVec 64) (s : Inst w) :
    slot.store v ⟨w, s⟩ = .next ⟨w, slot.stored v s⟩ := by
  cases slot with
  | cmd => exact absurd rfl h
  | id | status | keyLen | sLen | regA | regB | key | table => rfl

theorem writeSLen_eq (s : Inst w) (v : BitVec 10) : s.writeSLen v = { s with sLen := (s.writeSLen v).sLen } := by
  obtain ⟨_, e⟩ | ⟨_, e⟩ := writeSLen_cases s v <;> rw [e]

/-- A write changes only what a slot holds. -/
theorem stored_eq (slot : Slot) (v : BitVec 64) (s : Inst w) :
    slot.stored v s = { s with
      a := (slot.stored v s).a, b := (slot.stored v s).b, keyLen := (slot.stored v s).keyLen
      sLen := (slot.stored v s).sLen, mem := (slot.stored v s).mem } := by
  cases slot with
  | sLen => rw [Slot.stored, writeSLen_eq]
  | id | cmd | status | keyLen | regA | regB | key | table => rfl

@[simp] theorem stored_status (slot : Slot) (v : BitVec 64) (s : Inst w) : (slot.stored v s).status = s.status := by
  rw [stored_eq]

@[simp] theorem stored_pending (slot : Slot) (v : BitVec 64) (s : Inst w) :
    (slot.stored v s).pending = s.pending := by
  rw [stored_eq]

@[simp] theorem stored_lDraw (slot : Slot) (v : BitVec 64) (s : Inst w) : (slot.stored v s).lDraw = s.lDraw := by
  rw [stored_eq]

theorem stored_a (h : slot ≠ .regA) (v : BitVec 64) (s : Inst w) : (slot.stored v s).a = s.a := by
  cases slot with
  | regA => exact absurd rfl h
  | sLen => rw [Slot.stored, writeSLen_eq]
  | id | cmd | status | keyLen | regB | key | table => rfl

theorem stored_b (h : slot ≠ .regB) (v : BitVec 64) (s : Inst w) : (slot.stored v s).b = s.b := by
  cases slot with
  | regB => exact absurd rfl h
  | sLen => rw [Slot.stored, writeSLen_eq]
  | id | cmd | status | keyLen | regA | key | table => rfl

theorem stored_keyLen (h : slot ≠ .keyLen) (v : BitVec 64) (s : Inst w) : (slot.stored v s).keyLen = s.keyLen := by
  cases slot with
  | keyLen => exact absurd rfl h
  | sLen => rw [Slot.stored, writeSLen_eq]
  | id | cmd | status | regA | regB | key | table => rfl

theorem stored_sLen (h : slot ≠ .sLen) (v : BitVec 64) (s : Inst w) : (slot.stored v s).sLen = s.sLen := by
  cases slot with
  | sLen => exact absurd rfl h
  | id | cmd | status | keyLen | regA | regB | key | table => rfl

/-- Whether a slot is an entry of K or S, and so held in memory. -/
def Slot.inArray : Slot → Bool
  | .key _ | .table _ => true
  | .id | .cmd | .status | .keyLen | .sLen | .regA | .regB => false

theorem stored_mem (h : slot.inArray = false) (v : BitVec 64) (s : Inst w) :
    (slot.stored v s).mem = s.mem := by
  cases slot with
  | key | table => cases h
  | sLen => rw [Slot.stored, writeSLen_eq]
  | id | cmd | status | keyLen | regA | regB => rfl

theorem stored_readByte (h : slot.inArray = false) (v : BitVec 64) (s : Inst w)
    (a : Nat) : (slot.stored v s).readByte a = s.readByte a :=
  Inst.readByte_congr (stored_mem h v s) (by rw [stored_eq]) (by rw [stored_eq]) a

theorem stored_readKey {k : Fin 255} (h : slot ≠ .key k) (v : BitVec 64) (s : Inst w) :
    (slot.stored v s).readKey k = s.readKey k := by
  cases slot with
  | key k' => exact s.readKey_writeKey_other _ fun same => h (congrArg Slot.key (Fin.ext same.symm))
  | table i => exact s.readKey_writeTable k.isLt
  | id | cmd | status | keyLen | sLen | regA | regB => exact stored_readByte rfl v s _

theorem stored_readTable {i : Fin 512} (h : slot ≠ .table i) (v : BitVec 64) (s : Inst w) :
    (slot.stored v s).readTable i = s.readTable i := by
  cases slot with
  | key k => exact s.readTable_writeKey _ k.isLt
  | table i' =>
    refine s.readTable_writeTable_other ?_
    have other : i.val ≠ i'.val := fun same => h (congrArg Slot.table (Fin.ext same.symm))
    rw [List.length_singleton]
    omega
  | id | cmd | status | keyLen | sLen | regA | regB =>
    exact congrFun (Inst.readTable_congr (stored_readByte rfl v s)) i

theorem stored_readTable_same (i : Fin 512) (v : BitVec 64) (s : Inst w) :
    ((Slot.table i).stored v s).readTable i = v.setWidth w.bits :=
  Inst.readTable_writeTable_same (i := i) (j := 0) s one_pos

/-- A write changes what its own slot reads as, and no other. -/
theorem value_stored_other {slot' : Slot} (h : slot' ≠ slot) (v : BitVec 64) (s : Inst w) :
    slot'.value (slot.stored v s) = slot'.value s := by
  cases slot' with
  | id | cmd => rfl
  | status => exact congrArg Status.word (stored_status slot v s)
  | keyLen => exact congrArg (·.setWidth 64) (stored_keyLen h.symm v s)
  | sLen => exact congrArg (·.setWidth 64) (stored_sLen h.symm v s)
  | regA => exact congrArg (·.setWidth 64) (stored_a h.symm v s)
  | regB => exact congrArg (·.setWidth 64) (stored_b h.symm v s)
  | key k => exact congrArg (·.setWidth 64) (stored_readKey h.symm v s)
  | table i => exact congrArg (·.setWidth 64) (stored_readTable h.symm v s)

/-! #### When a write is refused -/

/-- A write to an address without a slot gets BUSERR. -/
theorem hostWrite_of_error {e : Fault} (h : slotAt addr = .error e) (v : BitVec 64) (mark : Bool) (s : State) :
    hostWrite addr v mark s = busError e mark s := by
  simp [hostWrite, h]

/-- While BUSY = 1 every write gets BUSERR, for its address or for the busy lock (20_memory.md R58). -/
theorem hostWrite_of_busy {s : State} (busy : s.inst.status.busy = true) (addr : BitVec 13) (v : BitVec 64)
    (mark : Bool) :
    ∃ e, (slotAt addr = .error e ∨ e = .busyLock) ∧ hostWrite addr v mark s = busError e mark s := by
  obtain ⟨_, e⟩ | ⟨_, _, e⟩ | ⟨slot, _, e⟩ := slotAt_cases addr
  · exact ⟨_, .inl e, hostWrite_of_error e v mark s⟩
  · exact ⟨_, .inl e, hostWrite_of_error e v mark s⟩
  · exact ⟨.busyLock, .inr rfl, by simp [hostWrite, e, busy]⟩

/-- While BUSY = 0 a write stores in its slot and gets OK (20_memory.md R57). -/
theorem hostWrite_of_idle {s : State} (idle : s.inst.status.busy = false) (slot : Slot) (v : BitVec 64) (mark : Bool) :
    hostWrite slot.addr v mark s = slot.store v (s.map (·.respond .writeOk)) := by
  simp [hostWrite, idle]

theorem hostWrite_stores {s : Inst w} (idle : s.status.busy = false) (h : slot ≠ .cmd) (v : BitVec 64) (mark : Bool) :
    hostWrite slot.addr v mark ⟨w, s⟩ = .next ⟨w, slot.stored v (s.respond .writeOk)⟩ :=
  (hostWrite_of_idle (s := ⟨w, s⟩) idle slot v mark).trans (store_eq h v _)

/-- Settles O55: the address has no slot, so read and write get the same BUSERR. -/
theorem badAddressesGetBusError : Obligations.BadAddressesGetBusError := by
  intro w s addr v e bad
  have none : slotAt addr = .error e := by
    obtain ⟨misaligned, rfl⟩ | ⟨aligned, hole, rfl⟩ := bad
    · exact slotAt_of_misaligned misaligned
    · exact slotAt_of_hole aligned hole
  have read (mark : Bool) : hostRead addr mark ⟨w, s⟩ = busError e mark ⟨w, s⟩ :=
    hostRead_error (memRead_of_error none s)
  have write (mark : Bool) : hostWrite addr v mark ⟨w, s⟩ = busError e mark ⟨w, s⟩ := hostWrite_of_error none v mark _
  exact ⟨read true, write true, read false, write false⟩

/-- Settles O54: each address of the three ranges is a slot's, and for reads the slot says whether the lock
refuses it. -/
theorem busyLockRefusesAccesses : Obligations.BusyLockRefusesAccesses := by
  intro w s busy
  refine ⟨fun addr v => ⟨?_, ?_⟩, fun addr aligned locked => ?_, fun addr aligned free mark => ?_⟩
  · obtain ⟨e, _, h⟩ := hostWrite_of_busy (s := ⟨w, s⟩) busy addr v true
    exact h
  · obtain ⟨e, _, h⟩ := hostWrite_of_busy (s := ⟨w, s⟩) busy addr v false
    exact ⟨e, h⟩
  · obtain ⟨slot, rfl⟩ := exists_addr_eq aligned (by unfold InHole; omega)
    have refused : memRead slot.addr s = .error .busyLock :=
      memRead_locked (by rw [busy, (lockedRead_iff slot).2 locked]; rfl)
    exact ⟨hostRead_error (s := ⟨w, s⟩) refused, hostRead_error (s := ⟨w, s⟩) refused⟩
  · obtain ⟨slot, rfl⟩ := exists_addr_eq aligned (by unfold InHole; omega)
    have unlocked : slot.lockedRead = false := by
      rw [← Bool.not_eq_true, lockedRead_iff]
      omega
    exact ⟨_, hostRead_ok (s := ⟨w, s⟩) (memRead_of_not_locked unlocked s)⟩

/-! #### What a write does -/

/-- Settles O56: each address is a slot's, and what the write stores there is its slot's case of `Slot.stored`. -/
theorem hostWriteEffects : Obligations.HostWriteEffects := by
  intro w s v mark idle
  have write (slot : Slot) (h : slot ≠ .cmd) := hostWrite_stores (slot := slot) idle h v mark
  simp only [BitVec.ofNat_toNat]
  refine ⟨write .id nofun, write .status nofun, write .keyLen nofun, fun small => ?_, fun large => ?_,
    write .regA nofun, write .regB nofun, fun k hk => ?_, fun i hi => ?_⟩
  · refine (write .sLen nofun).trans ?_
    rw [Slot.stored, Inst.writeSLen, if_pos (by rwa [BitVec.toNat_setWidth])]
    rfl
  · refine (write .sLen nofun).trans ?_
    rw [Slot.stored, Inst.writeSLen, if_neg (by rwa [BitVec.toNat_setWidth, not_le])]
    rfl
  · refine ⟨_, write (.key ⟨k, hk⟩) nofun, Inst.readKey_writeKey_same _ k _, ?_, fun addr other => ⟨?_, ?_⟩, rfl⟩
    · exact Option.ne_none_iff_exists'.2 ⟨_, Memory.read_write_same _ _ _⟩
    · exact Inst.readByte_writeKey_other _ _ other
    · exact Memory.read_write_other _ _ other
  · have outside {addr : Nat} (other : ∀ m, m < w.bytes → addr ≠ 0x1000 + 8 * i + m) :
        ∀ j, j < [v.setWidth w.bits].length → addr < tableAddr (i + j) ∨ tableAddr (i + j) + w.bytes ≤ addr :=
      fun j hj => by
        obtain rfl : j = 0 := Nat.lt_one_iff.1 hj
        exact outside_lanes other
    refine ⟨_, write (.table ⟨i, hi⟩) nofun, stored_readTable_same ⟨i, hi⟩ v _, fun m hm => ?_,
      fun addr other => ⟨?_, ?_⟩, rfl⟩
    · exact Option.ne_none_iff_exists'.2 ⟨_, Memory.read_writeTable_same (i := i) (j := 0) one_pos hm⟩
    · exact Inst.readByte_writeTable_other _ (outside other)
    · exact Memory.read_writeTable_other (outside other)

/-- Settles O57: a refused write changes the response only, and another one only what its own slot reads as. -/
theorem hostWriteChangesOneAddress : Obligations.HostWriteChangesOneAddress := by
  intro w s t addr addr' v mark notCmd other h
  obtain rfl | ⟨slot, found, idle, stores⟩ := hostWrite_cases h
  · exact ⟨_, rfl, memRead_respond addr' s .busErr⟩
  · obtain rfl := addr_of_slotAt found
    have notCmdSlot : slot ≠ .cmd := fun cmd => notCmd (congrArg Slot.addr cmd)
    rw [map_mk, store_eq notCmdSlot] at stores
    cases stores
    refine ⟨_, rfl, ?_⟩
    obtain ⟨_, e⟩ | ⟨_, _, e⟩ | ⟨slot', rfl, _⟩ := slotAt_cases addr'
    · rw [memRead_of_error e, memRead_of_error e]
    · rw [memRead_of_error e, memRead_of_error e]
    · have otherSlot : slot' ≠ slot := fun same => other (congrArg Slot.addr same)
      rw [memRead_of_not_busy (by rwa [stored_status]), value_stored_other otherSlot,
        ← memRead_of_not_busy (by exact idle), memRead_respond]

/-- A field of n bits that took the low bits of a value reads, zero-extended, as the value modulo 2^n. -/
theorem setWidth_setWidth_eq_ofNat (v : BitVec 64) (n : Nat) :
    (v.setWidth n).setWidth 64 = BitVec.ofNat 64 (v.toNat % 2 ^ n) := by
  rw [← BitVec.ofNat_toNat, BitVec.toNat_setWidth]

/-- A read right after a write to a field of n bits that stores the low n bits. -/
theorem memRead_after_hostWrite {s : Inst w} {v : BitVec 64} {n : Nat} (idle : s.status.busy = false)
    (h : slot ≠ .cmd) (mark : Bool)
    (field : slot.value (slot.stored v (s.respond .writeOk)) = (v.setWidth n).setWidth 64) :
    ∃ t : Inst w, hostWrite slot.addr v mark ⟨w, s⟩ = .next ⟨w, t⟩ ∧
      memRead slot.addr t = .ok (BitVec.ofNat 64 (v.toNat % 2 ^ n)) := by
  refine ⟨_, hostWrite_stores idle h v mark, ?_⟩
  rw [memRead_of_not_busy (by rwa [stored_status]), field, setWidth_setWidth_eq_ofNat]

/-- Settles O58: the address is a slot's, whose field took the low bits of the value. -/
theorem readBackAfterWrite : Obligations.ReadBackAfterWrite := by
  intro w s addr v mark idle
  refine ⟨fun byte => ?_, fun word => ?_⟩
  · obtain rfl | ⟨aligned, range⟩ := byte
    · exact memRead_after_hostWrite (slot := .keyLen) (n := 8) idle nofun mark rfl
    · obtain ⟨k, rfl⟩ : ∃ k, (Slot.key k).addr = addr := ⟨_, addr_of_slotAt (slotAt_of_key aligned range)⟩
      exact memRead_after_hostWrite (slot := .key k) (n := 8) idle nofun mark
        (congrArg (·.setWidth 64) (Inst.readKey_writeKey_same _ k _))
  · obtain rfl | rfl | ⟨aligned, range⟩ := word
    · exact memRead_after_hostWrite (slot := .regA) idle nofun mark rfl
    · exact memRead_after_hostWrite (slot := .regB) idle nofun mark rfl
    · obtain ⟨i, rfl⟩ : ∃ i, (Slot.table i).addr = addr := ⟨_, addr_of_slotAt (slotAt_of_table aligned range)⟩
      exact memRead_after_hostWrite (slot := .table i) idle nofun mark
        (congrArg (fun x : Word w => x.setWidth 64) (stored_readTable_same i v _))

end Sys2Proof.Machine
end

section
/-! ### Commands: acceptance, completion and the rotations

Acceptance reports or accepts (30_encoding.md R90), a command meets no other pending one (R93), and completion leaves
DONE and no error, because STATUS of a pending command is the one acceptance wrote (R91, R92). -/

namespace Sys2Proof.Machine

open Sys2Proof

variable {w : Width} {s : Inst w} {i : Instr} {v : BitVec 64}

theorem ErrCode.code_bounds (e : ErrCode) : 1 ≤ e.code.toNat ∧ e.code.toNat ≤ 3 := by
  cases e <;> decide

/-- A write of a word that decodes to a command runs the command. -/
theorem acceptWord_of_ok (h : decodeWord v = .ok i) (s : State) :
    acceptWord v s = exec i s := by
  rw [acceptWord, h]

/-- Everything acceptance can do: an error report, or the decoded command in flight with its check passed. -/
theorem acceptWord_of_idle (idle : s.pending = none) (v : BitVec 64) :
    (∃ e, acceptWord v ⟨w, s⟩ = .next ⟨w, raiseError e s⟩) ∨
    (∃ i, decodeWord v = .ok i ∧ commandCheck i s = none ∧ acceptWord v ⟨w, s⟩ = .next ⟨w, accept i s⟩) := by
  cases decoded : decodeWord v with
  | error e => exact .inl ⟨.illegalCommand, acceptWord_of_error decoded ⟨w, s⟩⟩
  | ok i =>
    rw [acceptWord_of_ok decoded]
    cases check : commandCheck i s with
    | none => exact .inr ⟨i, rfl, check, exec_accepts idle check⟩
    | some e => exact .inl ⟨e, exec_raises idle check⟩

/-- Settles O22: every report's code is one of the three, and the report and the acceptance change nothing else. -/
theorem commandWordIsReportedOrAccepted : Obligations.CommandWordIsReportedOrAccepted := by
  intro w v s idle
  obtain ⟨e, reported⟩ | ⟨i, decoded, check, accepted⟩ := acceptWord_of_idle idle v
  · exact .inl ⟨e.code, e.code_bounds.1, e.code_bounds.2, reported⟩
  · exact .inr ⟨i, decoded, check, accepted⟩

/-- Settles O24: the shared operation turns away what is not the pending command. -/
theorem secondCommandIsTurnedAway : Obligations.SecondCommandIsTurnedAway := by
  intro w s i j pending other
  rw [exec_eq_command]
  simp only [command, pending, if_neg other, State.lift]

/-- A legal STATUS with BUSY = 1 is the one acceptance wrote (10_state.md R27). -/
theorem Status.eq_accepted {st : Status} (legal : st.legal = true) (busy : st.busy = true) : st = .accepted := by
  obtain ⟨b, d, e, code⟩ := st
  obtain rfl : b = true := busy
  cases d <;> cases e
  case false.false =>
    rw [show code = 0 from of_decide_eq_true legal]
    rfl
  all_goals cases legal

/-- Settles O23: the pending command is the one that runs, and acceptance cleared the error fields. -/
theorem noErrorArisesAtCompletion : Obligations.NoErrorArisesAtCompletion := by
  intro w s i inv pending
  have busy : s.status.busy = true := by rw [inv.busy_iff_pending, pending]; rfl
  refine ⟨_, exec_completes pending, rfl, ?_⟩
  rw [finish_status, effectOf_status, Status.eq_accepted inv.status_legal busy]
  rfl

/-! #### The rotations -/

theorem rotlW_eq_ite (x : Word w) (y : Nat) :
    rotlW x y = if y % w.bits = 0 then x else x <<< (y % w.bits) ||| x >>> (w.bits - y % w.bits) := rfl

theorem rotrW_eq_ite (x : Word w) (y : Nat) :
    rotrW x y = if y % w.bits = 0 then x else x >>> (y % w.bits) ||| x <<< (w.bits - y % w.bits) := rfl

/-- Settles O25: ROTL has no check, and its effect is the rotation. -/
theorem rotlCompletes : Obligations.RotlCompletes := by
  intro w s r
  refine ⟨fun idle => exec_accepts idle rfl, fun pending => ?_⟩
  rw [exec_completes pending, ← rotlW_eq_ite]
  rfl

/-- Settles O26: ROTR has no check, and its effect is the rotation. -/
theorem rotrCompletes : Obligations.RotrCompletes := by
  intro w s r
  refine ⟨fun idle => exec_accepts idle rfl, fun pending => ?_⟩
  rw [exec_completes pending, ← rotrW_eq_ite]
  rfl

end Sys2Proof.Machine
end

section
/-! ### The block commands' completion

ENCRYPT and DECRYPT differ in their transform only: each writes its result over a specified table, and two free values
otherwise (43_block_transforms.md R176, R177, 70_reset_and_hazards.md R235). -/

namespace Sys2Proof.Machine

open Sys2Proof

variable {w : Width} {s : Inst w} {i : Instr} {r : Nat}

theorem blockEffect_of_unspecified (h : s.tableSpecified r = false) (result : Word w × Word w) :
    blockEffect r result s = s.drawBlock := if_neg (by rw [h]; decide)

/-- Completion of a block command, with and without a specified table. -/
theorem exec_block_completes {result : Word w × Word w} (effect : effectOf i s = blockEffect r result s)
    (pending : s.pending = some i) :
    ((∀ i, i < 2 * (r + 1) → ∀ m, m < w.bytes → s.mem.read (tableAddr i + m) ≠ none) →
      exec i ⟨w, s⟩ = .next ⟨w, finish (s.writeBlock result)⟩) ∧
    ((∃ i, i < 2 * (r + 1) ∧ ∃ m, m < w.bytes ∧ s.mem.read (tableAddr i + m) = none) →
      exec i ⟨w, s⟩ = .next ⟨w, finish s.drawBlock⟩) := by
  rw [exec_completes pending, effect]
  constructor
  · intro specified
    rw [blockEffect_of_specified (Inst.tableSpecified_iff.2 specified)]
  · intro unspecified
    rw [blockEffect_of_unspecified (Inst.tableSpecified_eq_false.2 unspecified)]

/-- Settles O27: ENCRYPT is the block command with ENC's result. -/
theorem encryptCompletes : Obligations.EncryptCompletes := fun _ _ r pending =>
  exec_block_completes (i := .encrypt r) rfl pending

/-- Settles O28: DECRYPT is the block command with DEC's result. -/
theorem decryptCompletes : Obligations.DecryptCompletes := fun _ _ r pending =>
  exec_block_completes (i := .decrypt r) rfl pending

/-- What a command does over a specified table when it is a block command with the transform `f`. -/
def IsTransform (i : Instr) (r : Nat) (f : (Nat → Word w) → Word w × Word w → Word w × Word w) : Prop :=
  ∀ s : Inst w, commandCheck i s = checkBlock r s ∧ effectOf i s = blockEffect r (f s.readTable (s.a, s.b)) s

theorem isTransform_encrypt (r : Nat) : IsTransform (w := w) (.encrypt r) r (fun table => enc table r) :=
  fun _ => ⟨rfl, rfl⟩

theorem isTransform_decrypt (r : Nat) : IsTransform (w := w) (.decrypt r) r (fun table => dec table r) :=
  fun _ => ⟨rfl, rfl⟩

/-- A block command from an idle core with a specified table that is long enough: accepted and completed, it leaves the
transform's result and the same table, idle again. -/
theorem exec_transform_runs {f : (Nat → Word w) → Word w × Word w → Word w × Word w} (transform : IsTransform i r f)
    (idle : s.pending = none) (enough : 2 * (r + 1) ≤ s.sLen.toNat) (specified : s.tableSpecified r = true) :
    ∃ t u : Inst w, exec i ⟨w, s⟩ = .next ⟨w, t⟩ ∧ exec i ⟨w, t⟩ = .next ⟨w, u⟩ ∧ u.pending = none ∧
      u.sLen = s.sLen ∧ u.tableSpecified r = true ∧ u.readTable = s.readTable ∧
      (u.a, u.b) = f s.readTable (s.a, s.b) := by
  obtain ⟨accepted, completed⟩ := exec_runs_to_completion idle ((transform s).1.trans (checkBlock_none.2 enough))
  have specified' : (accept i s).tableSpecified r = true := by rwa [accept_tableSpecified]
  have effect := (transform (accept i s)).2
  rw [blockEffect_of_specified specified'] at effect
  rw [effect] at completed
  exact ⟨_, _, accepted, completed, rfl, rfl, specified', by simp, by simp⟩

/-- Settles O33: the first command leaves the table and an idle core to the second, whose transform undoes the
first's. -/
theorem decryptAfterEncryptRestoresTheBlock : Obligations.DecryptAfterEncryptRestoresTheBlock := by
  intro w s r i j idle enough specified pair
  obtain ⟨f, g, first, second, undoes⟩ : ∃ f g : (Nat → Word w) → Word w × Word w → Word w × Word w,
      IsTransform i r f ∧ IsTransform j r g ∧ ∀ table ab, g table (f table ab) = ab := by
    obtain ⟨rfl, rfl⟩ | ⟨rfl, rfl⟩ := pair
    · exact ⟨_, _, isTransform_encrypt r, isTransform_decrypt r, fun table ab => dec_enc table r ab⟩
    · exact ⟨_, _, isTransform_decrypt r, isTransform_encrypt r, fun table ab => enc_dec table r ab⟩
  obtain ⟨t, u, accepted, completed, idle', sLen, specified', table, block⟩ :=
    exec_transform_runs first idle enough specified
  obtain ⟨v, x, accepted', completed', _, _, _, _, block'⟩ :=
    exec_transform_runs second idle' (sLen ▸ enough) specified'
  rw [table, block, undoes] at block'
  exact ⟨t, u, v, x, accepted, completed, accepted', completed', congrArg Prod.fst block', congrArg Prod.snd block'⟩

end Sys2Proof.Machine
end

section
/-! ### What a command leaves alone

EXPAND_KEY changes S, S_LEN and L, the four others A, B or both (10_state.md section 1); no command changes K or
KEY_LEN. -/

namespace Sys2Proof.Machine

open Sys2Proof

variable {w : Width} {i : Instr}

/-- EXPAND_KEY's effect is on memory, S_LEN, L and the draws only. -/
theorem expandKeyEffect_eq (r : Nat) (s : Inst w) :
    expandKeyEffect r s = { s with
      mem := (expandKeyEffect r s).mem, sLen := (expandKeyEffect r s).sLen, lDraw := s.lDraw + 1
      tableDraws := (expandKeyEffect r s).tableDraws, resultDraw := (expandKeyEffect r s).resultDraw } := by
  obtain ⟨_, e⟩ | ⟨_, e⟩ := expandKeyEffect_cases r s <;> rw [e] <;> rfl

theorem blockEffect_eq (r : Nat) (result : Word w × Word w) (s : Inst w) :
    blockEffect r result s = { s with
      a := (blockEffect r result s).a, b := (blockEffect r result s).b
      resultDraw := (blockEffect r result s).resultDraw } := by
  obtain ⟨_, e⟩ | ⟨_, e⟩ := blockEffect_cases r result s <;> rw [e] <;> rfl

/-- An effect that is not EXPAND_KEY's is on the block and the count of unspecified results only. -/
theorem effectOf_eq_of_nonStoring (h : ∀ r, i ≠ .expandKey r) (s : Inst w) :
    effectOf i s = { s with
      a := (effectOf i s).a, b := (effectOf i s).b, resultDraw := (effectOf i s).resultDraw } := by
  cases i with
  | expandKey r => exact absurd rfl (h r)
  | encrypt r => exact blockEffect_eq r _ s
  | decrypt r => exact blockEffect_eq r _ s
  | rotl | rotr => rfl

/-- Everything a command that stores nothing can do when it answers a next state. -/
theorem exec_nonStoring {s : Inst w} {t : State} (h : ∀ r, i ≠ .expandKey r) (run : exec i ⟨w, s⟩ = .next t) :
    ∃ u : Inst w, t = ⟨w, u⟩ ∧
      u = { s with a := u.a, b := u.b, status := u.status, pending := u.pending, resultDraw := u.resultDraw } := by
  obtain ⟨_, _, rfl⟩ | ⟨e, _, _, rfl⟩ | ⟨_, rfl⟩ := exec_cases run
  · exact ⟨_, rfl, rfl⟩
  · exact ⟨_, rfl, rfl⟩
  · refine ⟨_, rfl, ?_⟩
    rw [effectOf_eq_of_nonStoring h]
    rfl

/-- Settles O30: with memory and the draws of its bytes kept, every byte is kept; and a rotation touches A only. -/
theorem nonStoringCommandsFrame : Obligations.NonStoringCommandsFrame := by
  intro w s t r i which run
  have nonStoring (r' : Nat) : i ≠ .expandKey r' := by
    obtain rfl | rfl | rfl | rfl := which <;> nofun
  obtain ⟨u, rfl, frame⟩ := exec_nonStoring nonStoring run
  have bytes : ∀ a, u.readByte a = s.readByte a :=
    Inst.readByte_congr (by rw [frame]) (by rw [frame]) (by rw [frame])
  refine ⟨u, rfl, bytes, fun k => bytes _, fun j => congrFun (Inst.readTable_congr bytes) j, fun addr => by rw [frame],
    frame, fun rotation => ?_⟩
  obtain ⟨_, _, e⟩ | ⟨_, _, _, e⟩ | ⟨_, e⟩ := exec_cases run <;> cases e
  · exact ⟨rfl, rfl⟩
  · exact ⟨rfl, rfl⟩
  · obtain rfl | rfl := rotation <;> exact ⟨rfl, rfl⟩

/-- Settles O31: neither phase of a command writes them; the effect alone writes anything but STATUS and PENDING. -/
theorem noCommandWritesTheKey : Obligations.NoCommandWritesTheKey := by
  intro w i s t run
  obtain ⟨_, _, rfl⟩ | ⟨e, _, _, rfl⟩ | ⟨_, rfl⟩ := exec_cases run
  · exact ⟨_, rfl, fun _ _ => rfl, rfl, fun _ _ => ⟨rfl, rfl⟩⟩
  · exact ⟨_, rfl, fun _ _ => rfl, rfl, fun _ _ => ⟨rfl, rfl⟩⟩
  · refine ⟨_, rfl, fun k hk => effectOf_readKey i s hk, effectOf_keyLen i s, fun r hr => ?_⟩
    subst hr
    rw [effectOf, expandKeyEffect_eq]
    exact ⟨rfl, rfl⟩

/-! #### EXPAND_KEY -/

theorem tableLength_le {r : Nat} (hr : r ≤ 255) : tableLength r ≤ 512 := by
  rw [tableLength]
  omega

theorem expandKeyEffect_of_specified {s : Inst w} (h : s.keySpecified = true) (r : Nat) :
    expandKeyEffect r s = (s.writeExpandedKey r).drawBuffer := by
  rw [expandKeyEffect, if_pos h]

theorem expandKeyEffect_of_unspecified {s : Inst w} (h : s.keySpecified = false) (r : Nat) :
    expandKeyEffect r s = (s.drawTable (tableLength r)).drawBuffer := by
  rw [expandKeyEffect, if_neg (by rw [h]; decide)]

/-- S_LEN after an EXPAND_KEY of a specified key (42_key_schedule.md R149). -/
theorem toNat_expandKeyEffect_sLen {r : Nat} (hr : r ≤ 255) {s : Inst w} (specified : s.keySpecified = true) :
    (expandKeyEffect r s).sLen.toNat = 2 * (r + 1) := by
  have fits := tableLength_le hr
  rw [expandKeyEffect_of_specified specified, drawBuffer_sLen, writeExpandedKey_sLen, BitVec.toNat_ofNat,
    Nat.mod_eq_of_lt (by omega), tableLength]

/-- S_LEN after an EXPAND_KEY of an unspecified key is a legal free value (70_reset_and_hazards.md R235). -/
theorem toNat_expandKeyEffect_sLen_of_unspecified (r : Nat) {s : Inst w} (unspecified : s.keySpecified = false) :
    (expandKeyEffect r s).sLen.toNat = (Config.resultLength s.resultDraw).val := by
  have legal : (Config.resultLength s.resultDraw).val < 513 := (Config.resultLength s.resultDraw).isLt
  rw [expandKeyEffect_of_unspecified unspecified, drawBuffer_sLen, drawTable_sLen, BitVec.toNat_ofNat,
    Nat.mod_eq_of_lt (by omega)]

theorem expandKeyEffect_sLen_le {r : Nat} (hr : r ≤ 255) (s : Inst w) : (expandKeyEffect r s).sLen.toNat ≤ 512 := by
  obtain ⟨specified, _⟩ | ⟨unspecified, _⟩ := expandKeyEffect_cases r s
  · rw [toNat_expandKeyEffect_sLen hr specified]
    omega
  · rw [toNat_expandKeyEffect_sLen_of_unspecified r unspecified]
    exact Nat.le_of_lt_succ (Config.resultLength s.resultDraw).isLt

/-- EXPAND_KEY leaves every byte outside the table's lanes listed, or unlisted, as it was. -/
theorem expandKeyEffect_read_other (r : Nat) (s : Inst w) {b : Nat}
    (hb : ∀ j, j < tableLength r → b < tableAddr j ∨ tableAddr j + w.bytes ≤ b) :
    (expandKeyEffect r s).mem.read b = s.mem.read b := by
  obtain ⟨_, e⟩ | ⟨_, e⟩ := expandKeyEffect_cases r s <;> rw [e]
  · exact Memory.read_writeTable_other fun j hj => by
      rw [Nat.zero_add]
      exact hb j (by rwa [length_expandedTable] at hj)
  · have outside : inTable w (tableLength r) b = false := by
      have lane := hb ((b - tableAddr 0) / 8)
      rw [inTable, decide_eq_false_iff_not]
      simp only [tableAddr] at lane ⊢
      omega
    rw [drawBuffer_mem, drawTable_mem, Memory.read_dropTable, outside]
    rfl

/-- A word beyond the table reads as before. -/
theorem expandKeyEffect_readTable_other (s : Inst w) {r i : Nat} (h : tableLength r ≤ i) :
    (expandKeyEffect r s).readTable i = s.readTable i := by
  have bytes := w.bytes_le
  refine congrArg (BitVec.ofNat w.bits) (Inst.readLanes_congr fun k hk => expandKeyEffect_readByte r s fun j hj => ?_)
  simp only [tableAddr]
  omega

/-- The bytes of S[0..2r+1] after an EXPAND_KEY of a specified key are specified. -/
theorem expandKeyEffect_specifies {s : Inst w} (specified : s.keySpecified = true) {r i m : Nat}
    (hi : i < tableLength r) (hm : m < w.bytes) : (expandKeyEffect r s).mem.read (tableAddr i + m) ≠ none := by
  have written := Memory.read_writeTable_same (m := s.mem) (i := 0) (j := i)
    (xs := expandedTable w s.readKey s.keyLen.toNat r) (by rwa [length_expandedTable]) hm
  rw [Nat.zero_add] at written
  rw [expandKeyEffect_of_specified specified, drawBuffer_mem, writeExpandedKey_mem, written]
  nofun

/-- The bytes of S[0..2r+1] after an EXPAND_KEY of an unspecified key are new free values. -/
theorem expandKeyEffect_draws {s : Inst w} (unspecified : s.keySpecified = false) {r i m : Nat}
    (hi : i < tableLength r) (hm : m < w.bytes) :
    (expandKeyEffect r s).mem.read (tableAddr i + m) = none ∧
      (expandKeyEffect r s).readByte (tableAddr i + m) =
        Config.ramByte s.ramDraw (s.redraws (tableAddr i + m) + 1) (tableAddr i + m) := by
  have inside : inTable w (tableLength r) (tableAddr i + m) = true := by
    rw [inTable_tableAddr hm, decide_eq_true hi]
  rw [expandKeyEffect_of_unspecified unspecified]
  exact s.readByte_drawTable_same inside

/-- Settles O29: over a specified key the table is written word by word, over another it is drawn anew, and either way
the bytes outside its lanes are kept. -/
theorem expandKeyCompletes : Obligations.ExpandKeyCompletes := by
  intro w s r hr pending
  refine ⟨_, exec_completes pending, fun key => ?specified, fun noKey => ?unspecified, expandKeyEffect_sLen_le hr s,
    ?buffer, fun i hi => ?words, fun k hk => effectOf_readKey (.expandKey r) s hk, fun addr outside => ?bytes, ?frame⟩
  case specified =>
    have specified := Inst.keySpecified_iff.2 key
    refine ⟨fun i hi => ?_, fun i hi m hm => expandKeyEffect_specifies specified hi hm,
      toNat_expandKeyEffect_sLen hr specified, ?_, ?_⟩
    · rw [finish_readTable]
      exact readTable_expandKeyEffect specified hi
    · simp [effectOf, expandKeyEffect_of_specified specified]
    · simp [effectOf, expandKeyEffect_of_specified specified]
  case unspecified =>
    have unspecified := Inst.keySpecified_eq_false.2 noKey
    refine ⟨fun i hi m hm => expandKeyEffect_draws unspecified hi hm,
      toNat_expandKeyEffect_sLen_of_unspecified r unspecified, ?_, ?_⟩
    · simp [effectOf, expandKeyEffect_of_unspecified unspecified, tableLength]
    · simp [effectOf, expandKeyEffect_of_unspecified unspecified]
  case buffer =>
    rw [effectOf, expandKeyEffect_eq]
    exact Nat.succ_ne_self s.lDraw
  case words =>
    rw [finish_readTable]
    exact expandKeyEffect_readTable_other s hi
  case bytes =>
    have lanes : ∀ j, j < tableLength r → addr < tableAddr j ∨ tableAddr j + w.bytes ≤ addr :=
      fun j hj => outside_lanes (outside j hj)
    exact ⟨expandKeyEffect_readByte r s lanes, expandKeyEffect_read_other r s lanes⟩
  case frame =>
    rw [effectOf, expandKeyEffect_eq]
    rfl

/-- Settles O32: acceptance keeps all the operands, so the effect is on those the command was started with. -/
theorem acceptedCommandRunsToDone : Obligations.AcceptedCommandRunsToDone := by
  intro w i s idle check
  obtain ⟨accepted, completed⟩ := exec_runs_to_completion idle check
  refine ⟨_, _, accepted, rfl, rfl, completed, rfl, ?status, ?encrypt, ?decrypt, ?rotl, ?rotr, ?expandKey⟩
  case status =>
    rw [finish_status, effectOf_status]
    rfl
  case encrypt =>
    rintro r rfl specified
    rw [effectOf, encryptEffect, blockEffect_of_specified (by rwa [accept_tableSpecified]), accept_readTable]
    rfl
  case decrypt =>
    rintro r rfl specified
    rw [effectOf, decryptEffect, blockEffect_of_specified (by rwa [accept_tableSpecified]), accept_readTable]
    rfl
  case rotl =>
    rintro r rfl
    exact ⟨rfl, rfl⟩
  case rotr =>
    rintro r rfl
    exact ⟨rfl, rfl⟩
  case expandKey =>
    rintro r rfl specified
    have specified' : (accept (.expandKey r) s).keySpecified = true := by rwa [accept_keySpecified]
    refine ⟨toNat_expandKeyEffect_sLen (checkExpandKey_none.1 check) specified', fun j hj => ?_⟩
    rw [finish_readTable, effectOf, readTable_expandKeyEffect specified' hj, accept_readKey, accept_keyLen]

end Sys2Proof.Machine
end

section
/-! ### Whose step it is

A step is that of the agent the schedule names, or of the default agent when it names none (notes/assumptions/5.md);
and the host's step is the access its program has next. -/

namespace Sys2Proof.Machine

open Sys2Proof

variable {w : Width} {s : Inst w}

theorem step_of_sched_cons {ag : Agent} {later : List Agent} (h : s.sched = ag :: later) :
    step ⟨w, s⟩ = agentStep ag ⟨w, s.reschedule later⟩ := by
  simp only [step, h]
  rfl

theorem step_of_sched_nil (h : s.sched = []) : step ⟨w, s⟩ = agentStep (defaultAgent ⟨w, s⟩) ⟨w, s⟩ := by
  simp only [step, h]

theorem defaultAgent_of_idle (h : s.pending = none) : defaultAgent ⟨w, s⟩ = .host := by
  simp only [defaultAgent, h]

theorem defaultAgent_of_pending {i : Instr} (h : s.pending = some i) : defaultAgent ⟨w, s⟩ = .core := by
  simp only [defaultAgent, h]

theorem reschedule_self : s.reschedule s.sched = s := rfl

/-- The step of a host whose move it is, named by the schedule or by default. -/
theorem step_of_host_moves {later : List Agent}
    (h : s.sched = .host :: later ∨ (s.sched = [] ∧ later = [] ∧ s.pending = none)) :
    step ⟨w, s⟩ = hostStep ⟨w, s.reschedule later⟩ := by
  obtain named | ⟨empty, rfl, idle⟩ := h
  · exact step_of_sched_cons named
  · rw [step_of_sched_nil empty, defaultAgent_of_idle idle, ← empty, reschedule_self]
    rfl

theorem hostStep_nil (h : s.prog = []) : hostStep ⟨w, s⟩ = .next ⟨w, s⟩ := by
  simp only [hostStep, h]

theorem hostStep_rd {addr : BitVec 13} {mark : Bool} {rest : List HostOp} (h : s.prog = .rd addr mark :: rest) :
    hostStep ⟨w, s⟩ = hostRead addr mark ⟨w, s.advance rest⟩ := by
  simp only [hostStep, h]
  rfl

theorem hostStep_wr {addr : BitVec 13} {v : BitVec 64} {mark : Bool} {rest : List HostOp}
    (h : s.prog = .wr addr v mark :: rest) : hostStep ⟨w, s⟩ = hostWrite addr v mark ⟨w, s.advance rest⟩ := by
  simp only [hostStep, h]
  rfl

theorem hostStep_wait {rest : List HostOp} (h : s.prog = .wait :: rest) :
    hostStep ⟨w, s⟩ = .next ⟨w, (s.respond (.readOk s.status.word)).advance
      (if s.status.busy then s.prog else rest)⟩ := by
  rw [← hostWait_eq]
  simp only [hostStep, h]

theorem coreStep_idle (h : s.pending = none) : coreStep ⟨w, s⟩ = .next ⟨w, s⟩ := by
  simp only [coreStep, h]

theorem coreStep_pending {i : Instr} (h : s.pending = some i) : coreStep ⟨w, s⟩ = exec i ⟨w, s⟩ := by
  simp only [coreStep, h]

/-- Settles O6: the host's step at the state after the schedule's move, by what its program has next. -/
theorem stepRunsTheWrittenCommand : Obligations.StepRunsTheWrittenCommand := by
  intro w s later moves
  rw [step_of_host_moves moves]
  refine ⟨fun v mark rest idle hprog => ?_, fun addr v mark rest hprog => hostStep_wr hprog,
    fun addr mark rest hprog => hostStep_rd hprog, fun rest hprog => hostStep_wait hprog,
    fun hprog => hostStep_nil hprog⟩
  have accepts := (hostStep_wr (s := s.reschedule later) hprog).trans (hostWrite_of_idle idle .cmd v mark)
  exact ⟨accepts, fun i decoded => accepts.trans (acceptWord_of_ok decoded _)⟩

/-- Settles O7: the core's step at the state after the schedule's move, or by default while a command is pending. -/
theorem stepCompletesThePendingCommand : Obligations.StepCompletesThePendingCommand := by
  intro w s
  refine ⟨fun i later pending named => ?_, fun i pending empty => ?_, fun later idle named => ?_⟩
  · exact (step_of_sched_cons named).trans (coreStep_pending pending)
  · rw [step_of_sched_nil empty, defaultAgent_of_pending pending]
    exact coreStep_pending pending
  · exact (step_of_sched_cons named).trans (coreStep_idle idle)

/-- The decoder reads a table word as the word itself. -/
theorem decodeWord_of_decodeTableWord {nbits word : Nat} {i : Instr} (h : decodeTableWord nbits word = some i) :
    decodeWord (tableWord nbits word) = .ok i := by
  rw [decodeTableWord, decode_bytesOfNat] at h
  cases decoded : decodeWord (tableWord nbits word) with
  | error e => rw [decoded] at h; cases h
  | ok j => rw [decoded] at h; cases h; rfl

/-- Settles O8: the placed write is the host's next access, at CMD, and leaves schedule and program as they were. -/
theorem placedWordRunsNext : Obligations.PlacedWordRunsNext := by
  intro w s nbits word i idle decoded
  obtain ⟨write, _⟩ := stepRunsTheWrittenCommand w (State.withFetchWord ⟨w, s⟩ nbits word).inst s.sched (.inl rfl)
  exact (write (tableWord nbits word) false s.prog idle rfl).2 i (decodeWord_of_decodeTableWord decoded)

/-! #### Reset -/

theorem step_reset {later : List Agent} (h : s.sched = .environment :: later) :
    step ⟨w, s⟩ = .next ⟨w, resetStep (s.reschedule later)⟩ := step_of_sched_cons h

/-- Settles O9: the reset step is the rule's, at the state after the schedule's move. -/
theorem resetLeavesTheStatedValues : Obligations.ResetLeavesTheStatedValues := by
  intro w s later named
  refine ⟨_, step_reset named, rfl, rfl, rfl, rfl, rfl, rfl, rfl, ?_, Nat.succ_ne_self _, Nat.succ_ne_self _, rfl⟩
  rw [← idWord_eq]
  exact memRead_of_not_locked (slot := .id) rfl _

/-- Settles O10: reset leaves nothing pending, with which the core's move changes the schedule only. -/
theorem resetCancelsThePendingCommand : Obligations.ResetCancelsThePendingCommand := by
  intro w s later busy named
  obtain ⟨_, _, idleCore⟩ := stepCompletesThePendingCommand w (resetStep (s.reschedule (.core :: later)))
  exact ⟨_, _, step_reset named, idleCore later rfl rfl, rfl, rfl, rfl, rfl, rfl, rfl, rfl⟩

end Sys2Proof.Machine
end

section
/-! ### Everything a step can do

A step leaves the core alone, or the host stores in a slot or starts a command, or the core completes the pending one,
or reset strikes (20_memory.md R64, 30_encoding.md R90, R92). `StepOf` lists these, each up to the environment's part of
the contents, and every statement about all steps is a case split on it. -/

namespace Sys2Proof.Machine

open Sys2Proof

variable {w : Width} {s u x : Inst w} {t : State}

/-- Two contents hold the same core: they differ in host program, schedule and response only. -/
def SameCore (s u : Inst w) : Prop := u = s.withHostOf u

theorem SameCore.eq (h : SameCore s u) : u = s.withHostOf u := h

theorem SameCore.trans (h : SameCore s x) (h' : SameCore x u) : SameCore s u :=
  h'.eq.trans (congrArg (·.withHostOf u) h.eq)

/-- What looks at the core only is the same in both. -/
theorem SameCore.congr {α : Type} (h : SameCore s u) {f : Inst w → α} (core : ∀ s t, f (s.withHostOf t) = f s) :
    f u = f s := (congrArg f h.eq).trans (core s u)

theorem SameCore.status (h : SameCore s u) : u.status = s.status := h.congr fun _ _ => rfl

theorem SameCore.pending (h : SameCore s u) : u.pending = s.pending := h.congr fun _ _ => rfl

theorem Inst.Inv.sameCore (inv : s.Inv) (same : SameCore s x) : x.Inv :=
  inv.congr same.status same.pending (same.congr fun _ _ => rfl) (same.congr fun _ _ => rfl)

/-- The host's step leaves the core alone, or BUSY = 0 and it is a write that stores in its slot. -/
theorem hostStep_cases (h : hostStep ⟨w, s⟩ = .next t) :
    (∃ u : Inst w, t = ⟨w, u⟩ ∧ SameCore s u ∧ u.sched = s.sched) ∨
    (∃ slot v mark rest, s.prog = .wr (Slot.addr slot) v mark :: rest ∧ s.status.busy = false ∧
      slot.store v ⟨w, (s.advance rest).respond .writeOk⟩ = .next t) := by
  cases hprog : s.prog with
  | nil =>
    rw [hostStep_nil hprog] at h
    cases h
    exact .inl ⟨s, rfl, rfl, rfl⟩
  | cons op rest =>
    cases op with
    | rd addr mark =>
      rw [hostStep_rd hprog] at h
      obtain ⟨r, rfl⟩ := hostRead_cases h
      exact .inl ⟨_, rfl, rfl, rfl⟩
    | wr addr v mark =>
      rw [hostStep_wr hprog] at h
      obtain rfl | ⟨slot, found, idle, stores⟩ := hostWrite_cases h
      · exact .inl ⟨_, rfl, rfl, rfl⟩
      · obtain rfl := addr_of_slotAt found
        exact .inr ⟨slot, v, mark, rest, rfl, idle, stores⟩
    | wait =>
      rw [hostStep_wait hprog] at h
      cases h
      exact .inl ⟨_, rfl, rfl, rfl⟩

/-- What a step from `s` can leave; `x` is `s` up to the environment's part. -/
inductive StepOf (s : Inst w) : Inst w → Prop where
  | keeps {x : Inst w} (same : SameCore s x) : StepOf s x
  | stores {x : Inst w} (same : SameCore s x) {slot : Slot} (v : BitVec 64)
      (writes : State.hostWrites ⟨w, s⟩ slot.addr) (idle : s.status.busy = false) : StepOf s (slot.stored v x)
  | reports {x : Inst w} (same : SameCore s x) (e : ErrCode) (writes : State.hostWrites ⟨w, s⟩ Slot.cmd.addr)
      (idle : s.status.busy = false) : StepOf s (raiseError e x)
  | accepts {x : Inst w} (same : SameCore s x) {i : Instr} (writes : State.hostWrites ⟨w, s⟩ Slot.cmd.addr)
      (idle : s.status.busy = false) (fits : i.wellFormed = true) (check : commandCheck i x = none) :
      StepOf s (accept i x)
  | completes {x : Inst w} (same : SameCore s x) {i : Instr} (completes : State.completes ⟨w, s⟩ i) :
      StepOf s (finish (effectOf i x))
  | resets {x : Inst w} (same : SameCore s x) (mover : State.mover ⟨w, s⟩ = .environment) : StepOf s (resetStep x)

/-- Everything a step can do when it answers a next state. -/
theorem step_cases (consistent : s.status.busy = false → s.pending = none) (h : step ⟨w, s⟩ = .next t) :
    ∃ u : Inst w, t = ⟨w, u⟩ ∧ StepOf s u := by
  obtain ⟨later, moves⟩ := step_eq ⟨w, s⟩
  rw [moves, map_mk] at h
  have rescheduled : SameCore s (s.reschedule later) := rfl
  cases mover : State.mover ⟨w, s⟩ with
  | host =>
    rw [mover] at h
    obtain ⟨u, rfl, same, _⟩ | ⟨slot, v, mark, rest, hprog, idle, stores⟩ := hostStep_cases h
    · exact ⟨u, rfl, .keeps (rescheduled.trans same)⟩
    · have writes : State.hostWrites ⟨w, s⟩ slot.addr := ⟨mover, v, mark, rest, hprog⟩
      have answered : SameCore s (((s.reschedule later).advance rest).respond .writeOk) := rfl
      by_cases cmd : slot = .cmd
      · subst cmd
        obtain ⟨e, reported⟩ | ⟨i, decoded, check, accepted⟩ :=
          acceptWord_of_idle (s := ((s.reschedule later).advance rest).respond .writeOk) (consistent idle) v
        · cases reported.symm.trans stores
          exact ⟨_, rfl, .reports answered e writes idle⟩
        · cases accepted.symm.trans stores
          exact ⟨_, rfl, .accepts answered writes idle (decodeWord_wellFormed decoded) check⟩
      · cases (store_eq cmd v _).symm.trans stores
        exact ⟨_, rfl, .stores answered v writes idle⟩
  | core =>
    rw [mover] at h
    cases pending : s.pending with
    | none =>
      cases (coreStep_idle (s := s.reschedule later) pending).symm.trans h
      exact ⟨_, rfl, .keeps rescheduled⟩
    | some i =>
      cases ((coreStep_pending (s := s.reschedule later) pending).trans (exec_completes pending)).symm.trans h
      exact ⟨_, rfl, .completes rescheduled ⟨mover, pending⟩⟩
  | environment =>
    rw [mover] at h
    cases h
    exact ⟨_, rfl, .resets rescheduled mover⟩

/-! #### The invariant -/

theorem Inst.Inv.reset (w : Width) : (Inst.reset w).Inv := ⟨rfl, rfl, Nat.zero_le _, rfl, nofun⟩

/-- Settles O12: with nothing pending and nothing listed every clause holds at once. -/
theorem resetMeetsTheInvariant : Obligations.ResetMeetsTheInvariant := ⟨Inst.Inv.reset _, Inst.Inv.reset⟩

theorem Inst.Inv.resetStep (s : Inst w) : (resetStep s).Inv := ⟨rfl, rfl, Nat.zero_le _, rfl, nofun⟩

theorem Inst.Inv.raiseError (inv : s.Inv) (idle : s.status.busy = false) (e : ErrCode) : (raiseError e s).Inv := by
  have none := inv.pending_none idle
  refine ⟨by cases e <;> rfl, ?_, inv.sLen_le, inv.mem_wf, fun i pending => ?_⟩
  · rw [raiseError_pending, none]
    rfl
  · rw [raiseError_pending, none] at pending
    cases pending

theorem commandCheck_accept (i j : Instr) (s : Inst w) : commandCheck i (accept j s) = commandCheck i s := by
  cases i <;> rfl

theorem Inst.Inv.accept (inv : s.Inv) {i : Instr} (fits : i.wellFormed = true) (check : commandCheck i s = none) :
    (accept i s).Inv := by
  refine ⟨rfl, rfl, inv.sLen_le, inv.mem_wf, fun j pending => ?_⟩
  cases pending
  exact ⟨fits, (commandCheck_accept i i s).trans check⟩

theorem stored_sLen_le (h : s.sLen.toNat ≤ 512) (slot : Slot) (v : BitVec 64) :
    (slot.stored v s).sLen.toNat ≤ 512 := by
  by_cases target : slot = .sLen
  · subst target
    obtain ⟨legal, e⟩ | ⟨_, e⟩ := writeSLen_cases s (v.setWidth 10) <;> rw [Slot.stored, e]
    · exact legal
    · exact h
  · rwa [stored_sLen target]

theorem stored_mem_wf (h : s.mem.wf w = true) (slot : Slot) (v : BitVec 64) : (slot.stored v s).mem.wf w = true := by
  cases slot with
  | key k => exact Memory.wf_write _ (isRamByte_key k.isLt) h
  | table i => exact Memory.wf_writeTable (Nat.succ_le_of_lt i.isLt) h
  | id | cmd | status | keyLen | sLen | regA | regB => rwa [stored_mem rfl]

theorem Inst.Inv.stored (inv : s.Inv) (idle : s.status.busy = false) (slot : Slot) (v : BitVec 64) :
    (slot.stored v s).Inv where
  status_legal := by rw [stored_status, inv.status_legal]
  busy_iff_pending := by rw [stored_status, stored_pending, inv.busy_iff_pending]
  sLen_le := stored_sLen_le inv.sLen_le slot v
  mem_wf := stored_mem_wf inv.mem_wf slot v
  pending_checked i pending := by
    rw [stored_pending, inv.pending_none idle] at pending
    cases pending

/-- An effect keeps S_LEN legal. -/
theorem effectOf_sLen_le {i : Instr} (h : s.sLen.toNat ≤ 512) (check : commandCheck i s = none) :
    (effectOf i s).sLen.toNat ≤ 512 := by
  by_cases storing : ∃ r, i = .expandKey r
  · obtain ⟨r, rfl⟩ := storing
    exact expandKeyEffect_sLen_le (checkExpandKey_none.1 check) s
  · rw [effectOf_eq_of_nonStoring fun r hr => storing ⟨r, hr⟩]
    exact h

/-- An effect keeps the memory canonical. -/
theorem effectOf_mem_wf {i : Instr} (h : s.mem.wf w = true) (check : commandCheck i s = none) :
    (effectOf i s).mem.wf w = true := by
  by_cases storing : ∃ r, i = .expandKey r
  · obtain ⟨r, rfl⟩ := storing
    obtain ⟨_, e⟩ | ⟨_, e⟩ := expandKeyEffect_cases r s <;> rw [effectOf, e]
    · refine Memory.wf_writeTable ?_ h
      rw [length_expandedTable, Nat.zero_add]
      exact tableLength_le (checkExpandKey_none.1 check)
    · exact Memory.wf_dropTable _ h
  · rw [effectOf_eq_of_nonStoring fun r hr => storing ⟨r, hr⟩]
    exact h

theorem Inst.Inv.finish (inv : s.Inv) {i : Instr} (pending : s.pending = some i) :
    (finish (effectOf i s)).Inv := by
  obtain ⟨_, check⟩ := inv.pending_checked i pending
  refine ⟨?_, rfl, effectOf_sLen_le inv.sLen_le check, effectOf_mem_wf inv.mem_wf check, nofun⟩
  have busy : s.status.busy = true := by rw [inv.busy_iff_pending, pending]; rfl
  rw [finish_status, effectOf_status, Status.eq_accepted inv.status_legal busy]
  rfl

theorem StepOf.inv (steps : StepOf s u) (inv : s.Inv) : u.Inv := by
  cases steps with
  | keeps same => exact inv.sameCore same
  | stores same v writes idle => exact (inv.sameCore same).stored (same.status ▸ idle) _ v
  | reports same e writes idle => exact (inv.sameCore same).raiseError (same.status ▸ idle) e
  | accepts same writes idle fits check => exact (inv.sameCore same).accept fits check
  | completes same completes =>
    obtain ⟨_, pending⟩ := completes
    exact (inv.sameCore same).finish (same.pending.trans pending)
  | resets same mover => exact Inst.Inv.resetStep _

/-- Settles O13: each thing a step can do keeps the invariant. -/
theorem everyStepKeepsTheInvariant : Obligations.EveryStepKeepsTheInvariant := by
  rintro ⟨w, s⟩ t inv h
  obtain ⟨u, rfl, steps⟩ := step_cases inv.pending_none h
  exact ⟨rfl, steps.inv inv⟩

end Sys2Proof.Machine
end

section
/-! ### What stops, what is locked, who writes

The consequences of the case list of a step: a step stops only at an unmarked BUSERR (60_exceptions.md R207), BUSY is
cleared by completion and reset alone (30_encoding.md R93), the busy lock keeps the core from the host
(20_memory.md R58), and each component has the writers of 10_state.md section 1. -/

namespace Sys2Proof.Machine

open Sys2Proof

variable {w : Width} {s u x : Inst w} {t : State}

/-! #### What stops -/

/-- A BUSERR stops only a line that is not marked. -/
theorem busError_answers (e : Fault) (mark : Bool) (s : State) :
    (∃ t, busError e mark s = .next t) ∨ (mark = false ∧ busError e mark s = .fault e) := by
  cases mark with
  | true => exact .inl ⟨_, rfl⟩
  | false => exact .inr ⟨rfl, rfl⟩

/-- A read stops only with BUSERR. -/
theorem hostRead_answers (addr : BitVec 13) (mark : Bool) (s : State) :
    (∃ t, hostRead addr mark s = .next t) ∨
      ∃ e, mark = false ∧ memRead addr s.inst = .error e ∧ hostRead addr mark s = .fault e := by
  cases read : memRead addr s.inst with
  | ok data => exact .inl ⟨_, hostRead_ok read⟩
  | error e =>
    rw [hostRead_error read]
    obtain answers | ⟨unmarked, stops⟩ := busError_answers e mark s
    · exact .inl answers
    · exact .inr ⟨e, unmarked, rfl, stops⟩

/-- A store stops nowhere while nothing is pending. -/
theorem store_answers (idle : s.pending = none) (slot : Slot) (v : BitVec 64) : ∃ t, slot.store v ⟨w, s⟩ = .next t := by
  by_cases cmd : slot = .cmd
  · subst cmd
    obtain ⟨_, reported⟩ | ⟨_, _, _, accepted⟩ := acceptWord_of_idle idle v
    · exact ⟨_, reported⟩
    · exact ⟨_, accepted⟩
  · exact ⟨_, store_eq cmd v s⟩

/-- A write stops only with BUSERR. -/
theorem hostWrite_answers (consistent : s.status.busy = false → s.pending = none) (addr : BitVec 13) (v : BitVec 64)
    (mark : Bool) :
    (∃ t, hostWrite addr v mark ⟨w, s⟩ = .next t) ∨
      ∃ e, mark = false ∧ (slotAt addr = .error e ∨ (s.status.busy = true ∧ e = .busyLock)) ∧
        hostWrite addr v mark ⟨w, s⟩ = .fault e := by
  cases busy : s.status.busy with
  | true =>
    obtain ⟨e, why, write⟩ := hostWrite_of_busy (s := ⟨w, s⟩) busy addr v mark
    rw [write]
    obtain answers | ⟨unmarked, stops⟩ := busError_answers e mark ⟨w, s⟩
    · exact .inl answers
    · exact .inr ⟨e, unmarked, why.imp_right fun lock => ⟨rfl, lock⟩, stops⟩
  | false =>
    cases found : slotAt addr with
    | error e =>
      rw [hostWrite_of_error found]
      obtain answers | ⟨unmarked, stops⟩ := busError_answers e mark ⟨w, s⟩
      · exact .inl answers
      · exact .inr ⟨e, unmarked, .inl rfl, stops⟩
    | ok slot =>
      obtain rfl := addr_of_slotAt found
      rw [hostWrite_of_idle (s := ⟨w, s⟩) busy]
      exact .inl (store_answers (s := s.respond .writeOk) (consistent busy) slot v)

/-- The host's step stops only at an unmarked access that gets BUSERR. -/
theorem hostStep_answers (consistent : s.status.busy = false → s.pending = none) :
    (∃ t, hostStep ⟨w, s⟩ = .next t) ∨
      ∃ e, hostStep ⟨w, s⟩ = .fault e ∧
        ((∃ addr rest, s.prog = .rd addr false :: rest ∧ memRead addr s = .error e) ∨
         (∃ addr v rest, s.prog = .wr addr v false :: rest ∧
           (slotAt addr = .error e ∨ (s.status.busy = true ∧ e = .busyLock)))) := by
  cases hprog : s.prog with
  | nil => exact .inl ⟨_, hostStep_nil hprog⟩
  | cons op rest =>
    cases op with
    | rd addr mark =>
      rw [hostStep_rd hprog]
      obtain answers | ⟨e, rfl, read, stops⟩ := hostRead_answers addr mark ⟨w, s.advance rest⟩
      · exact .inl answers
      · exact .inr ⟨e, stops, .inl ⟨addr, rest, rfl, (memRead_advance addr s rest).symm.trans read⟩⟩
    | wr addr v mark =>
      rw [hostStep_wr hprog]
      obtain answers | ⟨e, rfl, why, stops⟩ := hostWrite_answers (s := s.advance rest) consistent addr v mark
      · exact .inl answers
      · exact .inr ⟨e, stops, .inr ⟨addr, v, rest, rfl, why⟩⟩
    | wait => exact .inl ⟨_, hostStep_wait hprog⟩

/-- Settles O14: the core's step completes what is pending or does nothing, reset always answers, and the host's step
stops at an unmarked BUSERR only. -/
theorem onlyUnmarkedBusErrorsStop : Obligations.OnlyUnmarkedBusErrorsStop := by
  rintro ⟨w, s⟩ inv
  obtain ⟨later, moves⟩ := step_eq ⟨w, s⟩
  rw [moves, map_mk]
  cases mover : State.mover ⟨w, s⟩ with
  | host =>
    obtain answers | ⟨e, stops, why⟩ := hostStep_answers (s := s.reschedule later) inv.pending_none
    · exact .inl answers
    · simp only [memRead_reschedule] at why
      exact .inr ⟨rfl, e, stops, why⟩
  | core =>
    cases pending : s.pending with
    | none => exact .inl ⟨_, coreStep_idle (s := s.reschedule later) pending⟩
    | some i =>
      exact .inl ⟨_, (coreStep_pending (s := s.reschedule later) pending).trans (exec_completes pending)⟩
  | environment => exact .inl ⟨_, rfl⟩

/-! #### The busy lock -/

/-- Settles O15: with BUSY = 1 the host neither stores nor starts, so what clears BUSY is completion or reset. -/
theorem onlyCompletionOrResetClearsBusy : Obligations.OnlyCompletionOrResetClearsBusy := by
  rintro ⟨w, s⟩ t busy h cleared
  obtain ⟨u, rfl, steps⟩ := step_cases (fun idle => absurd (busy.symm.trans idle) nofun) h
  cases steps with
  | keeps same => exact absurd ((same.status ▸ cleared).symm.trans busy) nofun
  | stores _ _ _ idle => exact absurd (idle.symm.trans busy) nofun
  | reports _ _ _ idle => exact absurd (idle.symm.trans busy) nofun
  | accepts _ _ idle => exact absurd (idle.symm.trans busy) nofun
  | completes _ completes => exact .inl completes.1
  | resets _ mover => exact .inr mover

/-- With BUSY = 1 the host's step leaves the core alone, and the schedule (20_memory.md R58). -/
theorem hostStep_of_busy (busy : s.status.busy = true) (h : hostStep ⟨w, s⟩ = .next t) :
    ∃ u : Inst w, t = ⟨w, u⟩ ∧ SameCore s u ∧ u.sched = s.sched := by
  obtain keeps | ⟨_, _, _, _, _, idle, _⟩ := hostStep_cases h
  · exact keeps
  · exact absurd (idle.symm.trans busy) nofun

/-- Settles O16: the host's step is locked out of the core, and the schedule is not the core's. -/
theorem busyLockKeepsTheCore : Obligations.BusyLockKeepsTheCore := by
  intro w s t busy mover h
  obtain ⟨later, moves⟩ := step_eq ⟨w, s⟩
  rw [moves, mover] at h
  obtain ⟨u, rfl, same, _⟩ := hostStep_of_busy (s := s.reschedule later) busy h
  exact ⟨u, rfl, same⟩

theorem effectOf_withHostOf (i : Instr) (s t : Inst w) : effectOf i (s.withHostOf t) = (effectOf i s).withHostOf t :=
  effectOf_environment i s t.prog t.sched t.response

/-- Completion from contents with the same core leaves the same core. -/
theorem SameCore.finish_effectOf (same : SameCore s x) (i : Instr) :
    SameCore (finish (effectOf i s)) (finish (effectOf i x)) := by
  have effect : effectOf i x = (effectOf i s).withHostOf x := by
    rw [← effectOf_withHostOf, ← same.eq]
  rw [effect]
  rfl

theorem steps_succ_cases {n : Nat} {s t : State} (h : steps (n + 1) s = .next t) :
    ∃ u, step s = .next u ∧ steps n u = .next t := by
  rw [steps] at h
  split at h
  · exact ⟨_, by assumption, h⟩
  · cases h
  · cases h

/-- Settles O19: each host step leaves the pending command's core alone, so by induction on their number the completion
starts from the core that was there at first. -/
theorem resultIsIndependentOfInterleaving : Obligations.ResultIsIndependentOfInterleaving := by
  intro w n s t i later pending busy sched h
  induction n generalizing s with
  | zero =>
    obtain ⟨_, first, rest⟩ := steps_succ_cases h
    rw [step_of_sched_cons sched] at first
    cases ((coreStep_pending (s := s.reschedule later) pending).trans (exec_completes pending)).symm.trans first
    cases rest
    have rescheduled : SameCore s (s.reschedule later) := rfl
    exact ⟨_, _, exec_completes pending, rfl, rescheduled.finish_effectOf i, effectOf_sched i _⟩
  | succ n ih =>
    obtain ⟨_, first, rest⟩ := steps_succ_cases h
    have named : s.sched = .host :: (List.replicate n .host ++ .core :: later) := sched
    rw [step_of_sched_cons named] at first
    have rescheduled : SameCore s (s.reschedule (List.replicate n .host ++ .core :: later)) := rfl
    obtain ⟨x, rfl, kept, sched'⟩ := 
      hostStep_of_busy (s := s.reschedule (List.replicate n Agent.host ++ Agent.core :: later)) busy first
    have same := rescheduled.trans kept
    have pending' : x.pending = some i := same.pending.trans pending
    obtain ⟨u, v, completed, rfl, result, sched''⟩ := ih x pending' (same.status ▸ busy) sched' rest
    cases (exec_completes pending').symm.trans completed
    exact ⟨_, v, exec_completes pending, rfl, (same.finish_effectOf i).trans result, sched''⟩

/-! #### The writers of each component -/

/-- A part of the contents that neither a report, an acceptance nor the end of a completion changes, nor the
environment's part: what the writes and the effects are about. -/
structure IsDatum {α : Type} (f : Inst w → α) : Prop where
  core : ∀ s t, f (s.withHostOf t) = f s
  raiseError : ∀ s e, f (raiseError e s) = f s
  accept : ∀ s i, f (accept i s) = f s
  finish : ∀ s, f (finish s) = f s

/-- Outside reset such a part has two kinds of writers: a host's write that stores and a completion's effect. -/
theorem StepOf.writers {α : Type} {f : Inst w → α} (datum : IsDatum f) (steps : StepOf s u)
    (noReset : State.mover ⟨w, s⟩ ≠ .environment) (changed : f u ≠ f s) :
    (∃ slot v x, State.hostWrites ⟨w, s⟩ (Slot.addr slot) ∧ f (slot.stored v x) ≠ f x) ∨
    (∃ i x, State.completes ⟨w, s⟩ i ∧ f (effectOf i x) ≠ f x) := by
  cases steps with
  | keeps same => exact absurd (same.congr datum.core) changed
  | stores same v writes idle => exact .inl ⟨_, v, _, writes, same.congr datum.core ▸ changed⟩
  | reports same e => exact absurd ((datum.raiseError _ e).trans (same.congr datum.core)) changed
  | accepts same => exact absurd ((datum.accept _ _).trans (same.congr datum.core)) changed
  | completes same completes =>
    rw [datum.finish] at changed
    exact .inr ⟨_, _, completes, same.congr datum.core ▸ changed⟩
  | resets _ mover => exact absurd mover noReset

/-- The writers of such a part that only the slot `target` stores in. -/
theorem StepOf.writers_of {α : Type} {f : Inst w → α} (datum : IsDatum f) {target : Slot}
    (slots : ∀ slot v x, slot ≠ target → f (Slot.stored slot v x) = f x) (steps : StepOf s u)
    (noReset : State.mover ⟨w, s⟩ ≠ .environment) (changed : f u ≠ f s) :
    State.hostWrites ⟨w, s⟩ target.addr ∨ ∃ i x, State.completes ⟨w, s⟩ i ∧ f (effectOf i x) ≠ f x := by
  obtain ⟨slot, v, x, writes, stored⟩ | completes := steps.writers datum noReset changed
  · obtain rfl : slot = target := by_contra fun other => stored (slots slot v x other)
    exact .inl writes
  · exact .inr completes

/-- STATUS and PENDING are written by a write to CMD and by every completion. -/
theorem StepOf.control_writers (steps : StepOf s u) (noReset : State.mover ⟨w, s⟩ ≠ .environment)
    (changed : u.status ≠ s.status ∨ u.pending ≠ s.pending) :
    State.hostWrites ⟨w, s⟩ Slot.cmd.addr ∨ ∃ i, State.completes ⟨w, s⟩ i := by
  cases steps with
  | keeps same => exact (changed.elim (absurd same.status) (absurd same.pending))
  | stores same v =>
    rw [stored_status, stored_pending] at changed
    exact (changed.elim (absurd same.status) (absurd same.pending))
  | reports _ _ writes => exact .inl writes
  | accepts _ writes => exact .inl writes
  | completes _ completes => exact .inr ⟨_, completes⟩
  | resets _ mover => exact absurd mover noReset

theorem isDatum_readTable (i : Nat) : IsDatum (w := w) (·.readTable i) where
  core s t := congrFun (withHostOf_readTable s t) i
  raiseError s e := congrFun (raiseError_readTable s e) i
  accept s j := congrFun (accept_readTable s j) i
  finish s := congrFun (finish_readTable s) i

theorem expandKeyEffect_a (r : Nat) (s : Inst w) : (expandKeyEffect r s).a = s.a := by rw [expandKeyEffect_eq]

theorem expandKeyEffect_b (r : Nat) (s : Inst w) : (expandKeyEffect r s).b = s.b := by rw [expandKeyEffect_eq]

variable {i : Instr}

theorem effectOf_sLen_of_nonStoring (h : ∀ r, i ≠ .expandKey r) (s : Inst w) : (effectOf i s).sLen = s.sLen := by
  rw [effectOf_eq_of_nonStoring h]

theorem effectOf_lDraw_of_nonStoring (h : ∀ r, i ≠ .expandKey r) (s : Inst w) : (effectOf i s).lDraw = s.lDraw := by
  rw [effectOf_eq_of_nonStoring h]

theorem effectOf_readTable_of_nonStoring (h : ∀ r, i ≠ .expandKey r) (s : Inst w) :
    (effectOf i s).readTable = s.readTable := Inst.readTable_congr (effectOf_readByte s h)

section Writers

variable (steps : StepOf s u) (noReset : State.mover ⟨w, s⟩ ≠ .environment)

include steps noReset

theorem StepOf.a_writers (changed : u.a ≠ s.a) :
    State.hostWrites ⟨w, s⟩ Slot.regA.addr ∨ ∃ r, State.completes ⟨w, s⟩ (.encrypt r) ∨
      State.completes ⟨w, s⟩ (.decrypt r) ∨ State.completes ⟨w, s⟩ (.rotl r) ∨ State.completes ⟨w, s⟩ (.rotr r) := by
  have datum : IsDatum (w := w) Inst.a := ⟨fun _ _ => rfl, fun _ _ => rfl, fun _ _ => rfl, fun _ => rfl⟩
  obtain writes | ⟨i, x, completes, effect⟩ :=
    steps.writers_of datum (target := .regA) (fun _ v x other => stored_a other v x) noReset changed
  · exact .inl writes
  · cases i with
    | expandKey r => exact (effect (expandKeyEffect_a r x)).elim
    | encrypt r => exact .inr ⟨r, .inl completes⟩
    | decrypt r => exact .inr ⟨r, .inr (.inl completes)⟩
    | rotl r => exact .inr ⟨r, .inr (.inr (.inl completes))⟩
    | rotr r => exact .inr ⟨r, .inr (.inr (.inr completes))⟩

theorem StepOf.b_writers (changed : u.b ≠ s.b) :
    State.hostWrites ⟨w, s⟩ Slot.regB.addr ∨ ∃ r, State.completes ⟨w, s⟩ (.encrypt r) ∨
      State.completes ⟨w, s⟩ (.decrypt r) := by
  have datum : IsDatum (w := w) Inst.b := ⟨fun _ _ => rfl, fun _ _ => rfl, fun _ _ => rfl, fun _ => rfl⟩
  obtain writes | ⟨i, x, completes, effect⟩ :=
    steps.writers_of datum (target := .regB) (fun _ v x other => stored_b other v x) noReset changed
  · exact .inl writes
  · cases i with
    | expandKey r => exact (effect (expandKeyEffect_b r x)).elim
    | encrypt r => exact .inr ⟨r, .inl completes⟩
    | decrypt r => exact .inr ⟨r, .inr completes⟩
    | rotl | rotr => exact (effect rfl).elim

theorem StepOf.keyLen_writers (changed : u.keyLen ≠ s.keyLen) : State.hostWrites ⟨w, s⟩ Slot.keyLen.addr := by
  have datum : IsDatum (w := w) Inst.keyLen := ⟨fun _ _ => rfl, fun _ _ => rfl, fun _ _ => rfl, fun _ => rfl⟩
  obtain writes | ⟨i, x, _, effect⟩ :=
    steps.writers_of datum (target := .keyLen) (fun _ v x other => stored_keyLen other v x) noReset changed
  · exact writes
  · exact (effect (effectOf_keyLen i x)).elim

theorem StepOf.sLen_writers (changed : u.sLen ≠ s.sLen) :
    State.hostWrites ⟨w, s⟩ Slot.sLen.addr ∨ ∃ r, State.completes ⟨w, s⟩ (.expandKey r) := by
  have datum : IsDatum (w := w) Inst.sLen := ⟨fun _ _ => rfl, fun _ _ => rfl, fun _ _ => rfl, fun _ => rfl⟩
  obtain writes | ⟨i, x, completes, effect⟩ :=
    steps.writers_of datum (target := .sLen) (fun _ v x other => stored_sLen other v x) noReset changed
  · exact .inl writes
  · obtain ⟨r, rfl⟩ : ∃ r, i = .expandKey r :=
      by_contra fun none => effect (effectOf_sLen_of_nonStoring (not_exists.1 none) x)
    exact .inr ⟨r, completes⟩

theorem StepOf.key_writers (k : Fin 255) (changed : u.readKey k ≠ s.readKey k) :
    State.hostWrites ⟨w, s⟩ (Slot.key k).addr := by
  have datum : IsDatum (w := w) (·.readKey k) := ⟨fun _ _ => rfl, fun _ _ => rfl, fun _ _ => rfl, fun _ => rfl⟩
  obtain writes | ⟨i, x, _, effect⟩ :=
    steps.writers_of datum (target := .key k) (fun _ v x other => stored_readKey other v x) noReset changed
  · exact writes
  · exact (effect (effectOf_readKey i x k.isLt)).elim

theorem StepOf.table_writers (i : Fin 512) (changed : u.readTable i ≠ s.readTable i) :
    State.hostWrites ⟨w, s⟩ (Slot.table i).addr ∨
      ∃ r, i.val < tableLength r ∧ State.completes ⟨w, s⟩ (.expandKey r) := by
  obtain writes | ⟨j, x, completes, effect⟩ := steps.writers_of (isDatum_readTable i) (target := .table i)
    (fun _ v x other => stored_readTable other v x) noReset changed
  · exact .inl writes
  · obtain ⟨r, rfl⟩ : ∃ r, j = .expandKey r :=
      by_contra fun none => effect (congrFun (effectOf_readTable_of_nonStoring (not_exists.1 none) x) i)
    have inTable : i.val < tableLength r := not_le.1 fun beyond => effect (expandKeyEffect_readTable_other x beyond)
    exact .inr ⟨r, inTable, completes⟩

theorem StepOf.buffer_writers (changed : u.lDraw ≠ s.lDraw) : ∃ r, State.completes ⟨w, s⟩ (.expandKey r) := by
  have datum : IsDatum (w := w) Inst.lDraw := ⟨fun _ _ => rfl, fun _ _ => rfl, fun _ _ => rfl, fun _ => rfl⟩
  obtain ⟨slot, v, x, _, stored⟩ | ⟨i, x, completes, effect⟩ := steps.writers datum noReset changed
  · exact (stored (stored_lDraw slot v x)).elim
  · obtain ⟨r, rfl⟩ : ∃ r, i = .expandKey r :=
      by_contra fun none => effect (effectOf_lDraw_of_nonStoring (not_exists.1 none) x)
    exact ⟨r, completes⟩

end Writers

/-- Settles O17: each component has one slot, if any, that stores in it, and the commands whose effect is not known to
keep it are those listed; STATUS and PENDING have CMD and every completion. -/
theorem eachComponentHasItsWriters : Obligations.EachComponentHasItsWriters := by
  intro w s t inv h noReset
  obtain ⟨u, rfl, steps⟩ := step_cases inv.pending_none h
  exact ⟨u, rfl, steps.control_writers noReset, steps.a_writers noReset, steps.b_writers noReset,
    steps.keyLen_writers noReset, steps.sLen_writers noReset, fun k hk => steps.key_writers noReset ⟨k, hk⟩,
    fun i hi => steps.table_writers noReset ⟨i, hi⟩, steps.buffer_writers noReset⟩

end Sys2Proof.Machine
end
